-- ==== Sys2Proof/Word.lean ====
section
/-! DEFINITION. The word types of the block (spec/00_scope.md R8, R10: every value is an unsigned integer of a stated
width, so each is a bit vector of that width). -/

namespace Sys2Proof

/-- A byte of the frame (spec/20_memory.md R56). -/
abbrev Byte := BitVec 8

/-- A 4-bit value: a packet-type code or packet_flags (spec/00_scope.md R8, `TYPE_BITS` and `FLAG_BITS`). -/
abbrev Nibble := BitVec 4

/-- The low seven bits of a remaining-length byte (spec/30_encoding.md R72). -/
abbrev Chunk := BitVec 7

/-- The remaining-length accumulator's width (spec/00_scope.md R8, `ACC_BITS`). -/
abbrev Word32 := BitVec 32

/-- The cursor's width (spec/00_scope.md R8, `POS_BITS`). -/
abbrev Pos := BitVec 3

end Sys2Proof
end

