-- ==== Sys2Proof/Config.lean ====
section
/-! DEFINITION. The block's parameters (spec/00_scope.md R8: "fixed; the model takes none as an argument"). No
implementation-defined value and no free value exists (spec/92_eei_decisions.md: "No point is left OPEN"), so this file
holds plain constants only and no opaque one. The parameter `EARLY_MALFORMED` that spec/93_implementation_defined.md U9
allows is not taken: the model has its default, false (log 10). -/

namespace Sys2Proof.Config

/-- The reserved packet-type code below the valid range (R8: "Codes 0 and 15 are reserved/invalid"). -/
abbrev reservedLow : Nibble := 0#4

/-- The reserved packet-type code above the valid range. -/
abbrev reservedHigh : Nibble := 15#4

/-- `RL_MAX_BYTES`: the most length bytes a field may have. -/
abbrev rlMaxBytes : Nat := 4

/-- `RL_CHUNK_BITS`: the value bits of one length byte. -/
abbrev rlChunkBits : Nat := 7

/-- `RL_MAX`: the largest remaining length, 2^28 − 1. -/
abbrev rlMax : Nat := 268435455

/-- The cursor's value after byte 0 and four length bytes, the longest header (R8: "5 bytes (1 + 4)"). -/
abbrev posMax : Pos := 5#3

end Sys2Proof.Config
end

