-- ==== Sys2Proof/Syntax.lean ====
section
/-! DEFINITION. The instructions (one constructor per row of spec/opcode_table.json), the control states their rows name,
the host's inputs of one cycle and the host's command notation. Bits that a row leaves open (`f`, `c`, `x`, `-`, and
`in_data` where the row ignores it) are operands, so that no bit of an encoding is lost (log 16). -/

namespace Sys2Proof

/-- The control state `st` (spec/10_state.md R21). The codes 101, 110 and 111 have no constructor, as R42 asks (log 7). -/
inductive CtlState where
  /-- no decode attempt has started since reset -/
  | idle
  /-- an attempt is running and waits for byte 0 -/
  | hdr
  /-- byte 0 was valid and the attempt waits for a length byte -/
  | len
  /-- the attempt ended with a valid fixed header -/
  | done
  /-- the attempt ended with an error -/
  | err
  deriving DecidableEq, Repr

/-- The 3-bit encoding of `st` (spec/10_state.md R21). -/
def CtlState.code : CtlState → BitVec 3
  | .idle => 0b000#3
  | .hdr => 0b001#3
  | .len => 0b010#3
  | .done => 0b011#3
  | .err => 0b100#3

/-- One constructor per row of spec/opcode_table.json, in the table's order.
Format B0 carries `flags` (bits 3:0). Format RLB carries `chunk` (bits 6:0), or the whole byte at index 4. Format CTL
carries the bits of `{R,S,V,E}` its pattern leaves open, by the port's name, and `inData` (spec/30_encoding.md R74, R84). -/
inductive Instr where
  | reserved0 (flags : Nibble)
  | connect (flags : Nibble)
  | connack (flags : Nibble)
  | publish (flags : Nibble)
  | puback (flags : Nibble)
  | pubrec (flags : Nibble)
  | pubrel (flags : Nibble)
  | pubcomp (flags : Nibble)
  | subscribe (flags : Nibble)
  | suback (flags : Nibble)
  | unsubscribe (flags : Nibble)
  | unsuback (flags : Nibble)
  | pingreq (flags : Nibble)
  | pingresp (flags : Nibble)
  | disconnect (flags : Nibble)
  | reserved15 (flags : Nibble)
  | rlCont (chunk : Chunk)
  | rlLast (chunk : Chunk)
  | rlOver (byte : Byte)
  | reset (start inValid inEoi : Bool) (inData : Byte)
  | start (inValid inEoi : Bool) (inData : Byte)
  | nopIdle (inValid inEoi : Bool) (inData : Byte)
  | byteHdr (start inEoi : Bool) (inData : Byte)
  | byteLen (start inEoi : Bool) (inData : Byte)
  | byteOver (start inEoi : Bool) (inData : Byte)
  | eoiHdr (start : Bool) (inData : Byte)
  | eoiLen (start : Bool) (inData : Byte)
  | nopBusy (start : Bool) (inData : Byte)
  deriving DecidableEq, Repr

/-- The row's mnemonic in spec/opcode_table.json. The names of codes 4 to 14 are labels from general knowledge
(spec/93_implementation_defined.md I1; log 9). -/
def Instr.mnemonic : Instr → String
  | .reserved0 _ => "RESERVED_0"
  | .connect _ => "CONNECT"
  | .connack _ => "CONNACK"
  | .publish _ => "PUBLISH"
  | .puback _ => "PUBACK"
  | .pubrec _ => "PUBREC"
  | .pubrel _ => "PUBREL"
  | .pubcomp _ => "PUBCOMP"
  | .subscribe _ => "SUBSCRIBE"
  | .suback _ => "SUBACK"
  | .unsubscribe _ => "UNSUBSCRIBE"
  | .unsuback _ => "UNSUBACK"
  | .pingreq _ => "PINGREQ"
  | .pingresp _ => "PINGRESP"
  | .disconnect _ => "DISCONNECT"
  | .reserved15 _ => "RESERVED_15"
  | .rlCont _ => "RL_CONT"
  | .rlLast _ => "RL_LAST"
  | .rlOver _ => "RL_OVER"
  | .reset _ _ _ _ => "RESET"
  | .start _ _ _ => "START"
  | .nopIdle _ _ _ => "NOP_IDLE"
  | .byteHdr _ _ _ => "BYTE_HDR"
  | .byteLen _ _ _ => "BYTE_LEN"
  | .byteOver _ _ _ => "BYTE_OVER"
  | .eoiHdr _ _ => "EOI_HDR"
  | .eoiLen _ _ => "EOI_LEN"
  | .nopBusy _ _ => "NOP_BUSY"

/-- The values on the input ports in one clock cycle (spec/10_state.md R32; `clk` is the step itself, log 14). -/
structure Cycle where
  rst : Bool
  start : Bool
  inValid : Bool
  inEoi : Bool
  inData : Byte
  deriving DecidableEq, Repr

/-- An instruction's bits, tagged with their format (spec/30_encoding.md R70): a byte of format B0, a byte of format RLB,
or the vector `{R,S,V,E}` of format CTL with `in_data`. -/
inductive Encoded where
  | b0 (byte : Byte)
  | rlb (byte : Byte)
  | ctl (vector : BitVec 4) (inData : Byte)
  deriving DecidableEq, Repr

/-- The host's commands, one a cycle (spec/30_encoding.md R83). -/
inductive HostCommand where
  | reset
  | start
  | byte (b : Byte)
  | eoi
  | nop
  deriving DecidableEq, Repr

end Sys2Proof
end

