-- ==== Sys2Proof/WellFormed.lean ====
section
/-! DEFINITION. Where an instruction may stand. Every operand's width is in its type, so the one check left is the row's
"position" column in spec/opcode_table.json: the control state and cursor at which the row is carried
(spec/30_encoding.md R76, R77, R84; 41_remaining_length.md R144 for the index of a length byte). -/

namespace Sys2Proof

/-- IDLE, DONE or ERR: no attempt is running. -/
def CtlState.resting : CtlState → Bool
  | .idle | .done | .err => true
  | .hdr | .len => false

/-- `pos` in 1 to 4: one of the four length bytes is expected (spec/43_control.md R188). -/
def lengthPos (pos : Pos) : Bool := decide (1 ≤ pos.toNat) && decide (pos.toNat ≤ 4)

/-- The instruction's row is carried at control state `st` with cursor `pos`. -/
def Instr.wellFormed (st : CtlState) (pos : Pos) : Instr → Bool
  | .reserved0 _ | .connect _ | .connack _ | .publish _ | .puback _ | .pubrec _ | .pubrel _ | .pubcomp _
  | .subscribe _ | .suback _ | .unsubscribe _ | .unsuback _ | .pingreq _ | .pingresp _ | .disconnect _
  | .reserved15 _ => decide (st = .hdr)
  | .rlCont _ | .rlLast _ => decide (st = .len) && lengthPos pos
  | .rlOver _ => decide (st = .len) && decide (pos = Config.posMax)
  | .reset _ _ _ _ => true
  | .start _ _ _ | .nopIdle _ _ _ => st.resting
  | .byteHdr _ _ _ | .eoiHdr _ _ => decide (st = .hdr)
  | .byteLen _ _ _ => decide (st = .len) && lengthPos pos
  | .byteOver _ _ _ => decide (st = .len) && decide (pos = Config.posMax)
  | .eoiLen _ _ => decide (st = .len)
  | .nopBusy _ _ => !st.resting

end Sys2Proof
end

