-- ==== Sys2Proof/Decode.lean ====
section
/-! DEFINITION. The decoder, total on any bits and rejecting by name, and after it the encoder, the opcode table's fixed
bits, the host notation's assembler and the reading of a bare table word. -/

namespace Sys2Proof

/-! ### Bit fields (spec/30_encoding.md R71, R72, R74) -/

/-- `b0[7:4]`, the packet-type code. -/
def typeCode (b : Byte) : Nibble := b.extractLsb' 4 4

/-- `b0[3:0]`, packet_flags. -/
def flagsOf (b : Byte) : Nibble := b.extractLsb' 0 4

/-- `b[7]`, the continuation flag. -/
def contBit (b : Byte) : Bool := b.getLsbD 7

/-- `b[6:0]`, the value chunk. -/
def chunkOf (b : Byte) : Chunk := b.extractLsb' 0 7

/-- The vector `{R,S,V,E}`, R in bit 3 (R74). -/
def ctlVector (r s v e : Bool) : BitVec 4 :=
  BitVec.ofBool r ++ BitVec.ofBool s ++ BitVec.ofBool v ++ BitVec.ofBool e

/-- A byte of format B0 from its fields. -/
def byteB0 (code flags : Nibble) : Byte := code ++ flags

/-- A byte of format RLB from its fields. -/
def byteRlb (c : Bool) (chunk : Chunk) : Byte := BitVec.ofBool c ++ chunk

/-- The CTL vector of a cycle's inputs. -/
def Cycle.vector (c : Cycle) : BitVec 4 := ctlVector c.rst c.start c.inValid c.inEoi

/-! ### The decoder -/

/-- Why bits are no instruction here. -/
inductive DecodeError where
  /-- a B0 byte where no byte 0 is expected (the state is not HDR) -/
  | noByteZeroHere
  /-- an RLB byte where no length byte is expected (the state is not LEN, or `pos` names no index) -/
  | noLengthByteHere
  /-- a byte presented in LEN with `pos` 0, 6 or 7, for which spec/30_encoding.md R84 has no row (log 4) -/
  | noRowForPos
  deriving DecidableEq, Repr

/-- Format B0 (spec/30_encoding.md R76): every one of the 16 codes selects exactly one row, by bits 7, 6, 5 and 4. -/
def decodeB0 (b : Byte) : Instr :=
  match b.getLsbD 7, b.getLsbD 6, b.getLsbD 5, b.getLsbD 4 with
  | false, false, false, false => .reserved0 (flagsOf b)
  | false, false, false, true => .connect (flagsOf b)
  | false, false, true, false => .connack (flagsOf b)
  | false, false, true, true => .publish (flagsOf b)
  | false, true, false, false => .puback (flagsOf b)
  | false, true, false, true => .pubrec (flagsOf b)
  | false, true, true, false => .pubrel (flagsOf b)
  | false, true, true, true => .pubcomp (flagsOf b)
  | true, false, false, false => .subscribe (flagsOf b)
  | true, false, false, true => .suback (flagsOf b)
  | true, false, true, false => .unsubscribe (flagsOf b)
  | true, false, true, true => .unsuback (flagsOf b)
  | true, true, false, false => .pingreq (flagsOf b)
  | true, true, false, true => .pingresp (flagsOf b)
  | true, true, true, false => .disconnect (flagsOf b)
  | true, true, true, true => .reserved15 (flagsOf b)

/-- Format RLB (spec/30_encoding.md R77), at index `i` of the length field. -/
def decodeRlb (i : Nat) (b : Byte) : Except DecodeError Instr :=
  if i < Config.rlMaxBytes then
    if contBit b then .ok (.rlCont (chunkOf b)) else .ok (.rlLast (chunkOf b))
  else if i = Config.rlMaxBytes then .ok (.rlOver b)
  else .error .noLengthByteHere

/-- Format CTL (spec/30_encoding.md R84, 43_control.md R181): the row a cycle's inputs carry at `st` and `pos`.
In HDR and LEN the `S` bit takes no part in the choice (R183); `in_valid` wins over `in_eoi` (R193). -/
def decodeCtl (st : CtlState) (pos : Pos) (vector : BitVec 4) (d : Byte) : Except DecodeError Instr :=
  let r := vector.getLsbD 3
  let s := vector.getLsbD 2
  let v := vector.getLsbD 1
  let e := vector.getLsbD 0
  if r then .ok (.reset s v e d)
  else match st with
    | .idle | .done | .err => if s then .ok (.start v e d) else .ok (.nopIdle v e d)
    | .hdr =>
      if v then .ok (.byteHdr s e d)
      else if e then .ok (.eoiHdr s d)
      else .ok (.nopBusy s d)
    | .len =>
      if v then
        if pos = Config.posMax then .ok (.byteOver s e d)
        else if lengthPos pos then .ok (.byteLen s e d)
        else .error .noRowForPos
      else if e then .ok (.eoiLen s d)
      else .ok (.nopBusy s d)

/-- The instruction that the bits `w` are at control state `st` with cursor `pos`. -/
def decode (st : CtlState) (pos : Pos) (w : Encoded) : Except DecodeError Instr :=
  match w with
  | .b0 b => if st = .hdr then .ok (decodeB0 b) else .error .noByteZeroHere
  | .rlb b => if st = .len ∧ pos ≠ 0#3 then decodeRlb (pos.toNat - 1) b else .error .noLengthByteHere
  | .ctl v d => decodeCtl st pos v d

/-! ### The encoder, from the same tables -/

/-- The bits of an instruction (spec/30_encoding.md R76, R77, R84). -/
def encode : Instr → Encoded
  | .reserved0 f => .b0 (byteB0 0b0000#4 f)
  | .connect f => .b0 (byteB0 0b0001#4 f)
  | .connack f => .b0 (byteB0 0b0010#4 f)
  | .publish f => .b0 (byteB0 0b0011#4 f)
  | .puback f => .b0 (byteB0 0b0100#4 f)
  | .pubrec f => .b0 (byteB0 0b0101#4 f)
  | .pubrel f => .b0 (byteB0 0b0110#4 f)
  | .pubcomp f => .b0 (byteB0 0b0111#4 f)
  | .subscribe f => .b0 (byteB0 0b1000#4 f)
  | .suback f => .b0 (byteB0 0b1001#4 f)
  | .unsubscribe f => .b0 (byteB0 0b1010#4 f)
  | .unsuback f => .b0 (byteB0 0b1011#4 f)
  | .pingreq f => .b0 (byteB0 0b1100#4 f)
  | .pingresp f => .b0 (byteB0 0b1101#4 f)
  | .disconnect f => .b0 (byteB0 0b1110#4 f)
  | .reserved15 f => .b0 (byteB0 0b1111#4 f)
  | .rlCont c => .rlb (byteRlb true c)
  | .rlLast c => .rlb (byteRlb false c)
  | .rlOver b => .rlb b
  | .reset s v e d => .ctl (ctlVector true s v e) d
  | .start v e d => .ctl (ctlVector false true v e) d
  | .nopIdle v e d => .ctl (ctlVector false false v e) d
  | .byteHdr s e d => .ctl (ctlVector false s true e) d
  | .byteLen s e d => .ctl (ctlVector false s true e) d
  | .byteOver s e d => .ctl (ctlVector false s true e) d
  | .eoiHdr s d => .ctl (ctlVector false s false true) d
  | .eoiLen s d => .ctl (ctlVector false s false true) d
  | .nopBusy s d => .ctl (ctlVector false s false false) d

/-! ### The opcode table's own columns -/

/-- One row of spec/30_encoding.md R84: the states and the cursor range it names, and its match and mask. -/
structure CtlRow where
  mnemonic : String
  states : List CtlState
  posLo : Nat
  posHi : Nat
  mask : BitVec 4
  pattern : BitVec 4
  deriving DecidableEq, Repr

/-- The rows of R84 from top to bottom (a row that names no `pos` takes 0 to 7). -/
def ctlRows : List CtlRow :=
  [⟨"RESET", [.idle, .hdr, .len, .done, .err], 0, 7, 0b1000#4, 0b1000#4⟩,
   ⟨"START", [.idle, .done, .err], 0, 7, 0b1100#4, 0b0100#4⟩,
   ⟨"NOP_IDLE", [.idle, .done, .err], 0, 7, 0b1100#4, 0b0000#4⟩,
   ⟨"BYTE_HDR", [.hdr], 0, 7, 0b1010#4, 0b0010#4⟩,
   ⟨"BYTE_LEN", [.len], 1, 4, 0b1010#4, 0b0010#4⟩,
   ⟨"BYTE_OVER", [.len], 5, 5, 0b1010#4, 0b0010#4⟩,
   ⟨"EOI_HDR", [.hdr], 0, 7, 0b1011#4, 0b0001#4⟩,
   ⟨"EOI_LEN", [.len], 0, 7, 0b1011#4, 0b0001#4⟩,
   ⟨"NOP_BUSY", [.hdr, .len], 0, 7, 0b1011#4, 0b0000#4⟩]

/-- The row's state, cursor range and pattern all match. -/
def CtlRow.carries (row : CtlRow) (st : CtlState) (pos : Pos) (vector : BitVec 4) : Bool :=
  row.states.contains st && decide (row.posLo ≤ pos.toNat) && decide (pos.toNat ≤ row.posHi)
    && (vector &&& row.mask == row.pattern)

/-- The mask and match columns of spec/opcode_table.json, 8 bits wide (a CTL row has its 4 bits in 3:0). -/
def Instr.fixedBits : Instr → BitVec 8 × BitVec 8
  | .reserved0 _ => (0xF0#8, 0x00#8)
  | .connect _ => (0xF0#8, 0x10#8)
  | .connack _ => (0xF0#8, 0x20#8)
  | .publish _ => (0xF0#8, 0x30#8)
  | .puback _ => (0xF0#8, 0x40#8)
  | .pubrec _ => (0xF0#8, 0x50#8)
  | .pubrel _ => (0xF0#8, 0x60#8)
  | .pubcomp _ => (0xF0#8, 0x70#8)
  | .subscribe _ => (0xF0#8, 0x80#8)
  | .suback _ => (0xF0#8, 0x90#8)
  | .unsubscribe _ => (0xF0#8, 0xA0#8)
  | .unsuback _ => (0xF0#8, 0xB0#8)
  | .pingreq _ => (0xF0#8, 0xC0#8)
  | .pingresp _ => (0xF0#8, 0xD0#8)
  | .disconnect _ => (0xF0#8, 0xE0#8)
  | .reserved15 _ => (0xF0#8, 0xF0#8)
  | .rlCont _ => (0x80#8, 0x80#8)
  | .rlLast _ => (0x80#8, 0x00#8)
  | .rlOver _ => (0x00#8, 0x00#8)
  | .reset _ _ _ _ => (0x8#8, 0x8#8)
  | .start _ _ _ => (0xC#8, 0x4#8)
  | .nopIdle _ _ _ => (0xC#8, 0x0#8)
  | .byteHdr _ _ _ => (0xA#8, 0x2#8)
  | .byteLen _ _ _ => (0xA#8, 0x2#8)
  | .byteOver _ _ _ => (0xA#8, 0x2#8)
  | .eoiHdr _ _ => (0xB#8, 0x1#8)
  | .eoiLen _ _ => (0xB#8, 0x1#8)
  | .nopBusy _ _ => (0xB#8, 0x0#8)

/-- The bits that the table's mask and match speak about: the byte of B0 and RLB, the vector of CTL. -/
def Encoded.tableBits : Encoded → BitVec 8
  | .b0 b => b
  | .rlb b => b
  | .ctl v _ => v.setWidth 8

/-! ### The host's inputs and notation -/

/-- A cycle in which the host presents nothing (spec/30_encoding.md R83, NOP). -/
def Cycle.nop : Cycle := ⟨false, false, false, false, 0#8⟩

/-- The inputs that present an instruction's bits to the block: a byte of B0 or RLB as the `BYTE` command does, a CTL
vector on its own ports (spec/30_encoding.md R74, R83). -/
def Encoded.cycle : Encoded → Cycle
  | .b0 b => ⟨false, false, true, false, b⟩
  | .rlb b => ⟨false, false, true, false, b⟩
  | .ctl v d => ⟨v.getLsbD 3, v.getLsbD 2, v.getLsbD 1, v.getLsbD 0, d⟩

/-- The CTL encoding of a host command (spec/30_encoding.md R83). Bits that the rule leaves open are 0 here (log 17). -/
def HostCommand.cycle : HostCommand → Cycle
  | .reset => ⟨true, false, false, false, 0#8⟩
  | .start => ⟨false, true, false, false, 0#8⟩
  | .byte b => ⟨false, false, true, false, b⟩
  | .eoi => ⟨false, false, false, true, 0#8⟩
  | .nop => Cycle.nop

/-- A host program as the cycles it drives, one line a cycle (R83). -/
def assemble (program : List HostCommand) : List Cycle := program.map HostCommand.cycle

/-- The pseudo-instruction `FEED b0, …, bk` (R83). -/
def feed (bytes : List Byte) : List HostCommand := bytes.map HostCommand.byte

/-- The pseudo-instruction `PARSE [b0, …, bk]`: START, FEED, then EOI (R83). -/
def parseProgram (bytes : List Byte) : List HostCommand := .start :: feed bytes ++ [.eoi]

/-! ### A bare word of the opcode table -/

/-- A table word read as bits of a format, with the place (control state and cursor) of the row taken. -/
structure TableRead where
  word : Encoded
  st : CtlState
  pos : Pos
  deriving DecidableEq, Repr

/-- The place of a bare CTL vector: R84's first row for it from the top, with IDLE for the rows of the resting states and
HDR for a lone `in_valid` or `in_eoi`. -/
def ctlPlace (v : BitVec 4) : CtlState :=
  if v.getLsbD 3 || v.getLsbD 2 then .idle
  else if v.getLsbD 1 || v.getLsbD 0 then .hdr
  else .idle

/-- The bits of an opcode-table row carry neither its format nor its state, and rows of the three formats share words.
Fewer than 8 bits are a CTL vector; so is a word 1 to 15 (a CTL row's 4 bits in a whole byte). Every other byte is format
B0 (log 6). -/
def readTableWord (nbits w : Nat) : Option TableRead :=
  if nbits < 8 || (decide (0 < w) && decide (w < 16)) then
    if w < 16 then some ⟨.ctl (BitVec.ofNat 4 w) 0#8, ctlPlace (BitVec.ofNat 4 w), 0#3⟩ else none
  else if w < 256 then some ⟨.b0 (BitVec.ofNat 8 w), .hdr, 0#3⟩
  else none

/-- The decoder's answer on a bare table word. -/
def decodeTableWord (nbits w : Nat) : Option Instr :=
  (readTableWord nbits w).bind fun t => (decode t.st t.pos t.word).toOption

end Sys2Proof
end

