-- ==== Sys2Proof/Machine/Frame.lean ====
section
/-! DEFINITION. The functional layer's input and results (spec/00_scope.md R11, 20_memory.md R50): the frame, its two
primitives, and the shapes of a result. The frame is the host's and is an argument, never state (log 15). -/

namespace Sys2Proof.Machine

/-- The frame: a finite byte sequence indexed by offset from 0, of any length, 0 included (spec/20_memory.md R50, R51). -/
abbrev Frame := List Byte

/-- `Avail(k)`: the frame has a byte at offset `k` (spec/00_scope.md R11). -/
def avail (inp : Frame) (k : Nat) : Bool := decide (k < inp.length)

/-- `MemRead(k, 1)`: the byte at offset `k`, none exactly where `Avail(k)` fails (spec/00_scope.md R11). -/
def memRead (inp : Frame) (k : Nat) : Option Byte := inp[k]?

/-- `in[k..]`, the suffix from offset `k` (spec/00_scope.md R11). -/
def suffixFrom (inp : Frame) (k : Nat) : Frame := inp.drop k

/-- The three error kinds with what they carry (spec/60_exceptions.md R210). -/
inductive ParseError where
  | invalidPacketType (value : Nibble)
  | unexpectedEndOfInput
  | malformedVariableLength
  deriving DecidableEq, Repr

/-- `Ok(v)` or `Err(E)` (spec/00_scope.md R11). -/
inductive Parsed (α : Type) where
  | ok (value : α)
  | err (error : ParseError)
  deriving DecidableEq, Repr

/-- The closed enumeration of 14 packet types (spec/40_packet_type.md R117). The names of codes 4 to 14 are labels
(spec/93_implementation_defined.md I1; log 9). -/
inductive PacketType where
  | connect
  | connack
  | publish
  | puback
  | pubrec
  | pubrel
  | pubcomp
  | subscribe
  | suback
  | unsubscribe
  | unsuback
  | pingreq
  | pingresp
  | disconnect
  deriving DecidableEq, Repr

/-- The decoded header (spec/42_fixed_header.md R166). -/
structure FixedHeader where
  packetType : PacketType
  packetFlags : Nibble
  remainingLength : Word32
  deriving DecidableEq, Repr

end Sys2Proof.Machine
end

