-- ==== Sys2Proof/Machine/Operands.lean ====
section
/-! DEFINITION. Operand assembly (spec/30_encoding.md R75; no value is sign-extended) and the codes of the enumerations. -/

namespace Sys2Proof.Machine

/-- `zext_32` (spec/00_scope.md R10). -/
def zext32 {w : Nat} (v : BitVec w) : Word32 := v.setWidth 32

/-- A chunk at index `i`, scaled by `128^i`: `zext_32(b[6:0]) << (7 * i)` (spec/30_encoding.md R75). -/
def chunkTerm (i : Nat) (chunk : Chunk) : Word32 := zext32 chunk <<< (Config.rlChunkBits * i)

/-- The index of the length byte expected at cursor `pos`, `pos − 1` (spec/43_control.md R188). -/
def lengthIndex (pos : Pos) : Nat := pos.toNat - 1

/-- `valid_type(c)` (spec/40_packet_type.md R100). -/
def validType (code : Nibble) : Bool := code != Config.reservedLow && code != Config.reservedHigh

/-- The wire code of a packet type, 1 to 14 (spec/40_packet_type.md R117). -/
def packetCode : PacketType → Nibble
  | .connect => 1#4
  | .connack => 2#4
  | .publish => 3#4
  | .puback => 4#4
  | .pubrec => 5#4
  | .pubrel => 6#4
  | .pubcomp => 7#4
  | .subscribe => 8#4
  | .suback => 9#4
  | .unsubscribe => 10#4
  | .unsuback => 11#4
  | .pingreq => 12#4
  | .pingresp => 13#4
  | .disconnect => 14#4

/-- `PT(c)`, the variant whose wire code is `c`; none for 0 and 15 (spec/40_packet_type.md R100, R117). -/
def packetOf (c : Nibble) : Option PacketType :=
  match c.getLsbD 3, c.getLsbD 2, c.getLsbD 1, c.getLsbD 0 with
  | false, false, false, false => none
  | false, false, false, true => some .connect
  | false, false, true, false => some .connack
  | false, false, true, true => some .publish
  | false, true, false, false => some .puback
  | false, true, false, true => some .pubrec
  | false, true, true, false => some .pubrel
  | false, true, true, true => some .pubcomp
  | true, false, false, false => some .subscribe
  | true, false, false, true => some .suback
  | true, false, true, false => some .unsubscribe
  | true, false, true, true => some .unsuback
  | true, true, false, false => some .pingreq
  | true, true, false, true => some .pingresp
  | true, true, true, false => some .disconnect
  | true, true, true, true => none

end Sys2Proof.Machine
end

