-- ==== Sys2Proof/Machine/State.lean ====
section
/-! DEFINITION. The block's state (spec/10_state.md R20: seven registers, 52 bits, "No other state exists"), the host's
pending inputs, the reset state, and the reasons a step of the MODEL can stop. The block itself never stops: its errors
are the state ERR (spec/60_exceptions.md R215). -/

namespace Sys2Proof.Machine

/-- The error kind `ekind` (spec/10_state.md R28, 60_exceptions.md R210). -/
inductive ErrKind where
  /-- 0, NONE: not in ERR -/
  | noError
  /-- 1: byte 0 bits 7:4 are 0 or 15 -/
  | invalidPacketType
  /-- 2: the frame ended inside the fixed header -/
  | unexpectedEndOfInput
  /-- 3: a fifth length byte -/
  | malformedVariableLength
  deriving DecidableEq, Repr

/-- The 2-bit encoding of `ekind` (spec/10_state.md R28); all four codes are used. -/
def ErrKind.code : ErrKind → BitVec 2
  | .noError => 0#2
  | .invalidPacketType => 1#2
  | .unexpectedEndOfInput => 2#2
  | .malformedVariableLength => 3#2

/-- The state: the seven registers of spec/10_state.md R20, then the values the host drives in the coming cycles, the
current cycle's first (the MODEL's own field, log 1). -/
structure State where
  /-- control state (R21) -/
  st : CtlState
  /-- bytes consumed in the current attempt (R23) -/
  pos : Pos
  /-- remaining-length accumulator (R25) -/
  acc : Word32
  /-- validated packet-type code (R26) -/
  ptype : Nibble
  /-- packet_flags (R27) -/
  pflags : Nibble
  /-- error kind (R28) -/
  ekind : ErrKind
  /-- the code an InvalidPacketType error carries (R29) -/
  evalue : Nibble
  /-- the host's inputs, cycle by cycle -/
  host : List Cycle
  deriving DecidableEq, Repr

/-- The reset state (spec/10_state.md R40), with no input placed by the host yet (log 3). -/
def State.reset : State := ⟨.idle, 0#3, 0#32, 0#4, 0#4, .noError, 0#4, []⟩

/-- Why the model stops. No fault is the block's own. -/
inductive Fault where
  /-- Raised by `step` when a byte is presented in LEN with `pos` 0, 6 or 7: no rule of the spec covers it and no run
  reaches it (spec/10_state.md R24, R41; log 4). Safe: the model stops where the spec says nothing. -/
  | noRuleForPos
  deriving DecidableEq, Repr

/-- Why an instruction has no meaning. -/
inductive Refusal where
  /-- Raised by `exec` for an instruction whose meaning is not written. Safe: the model stops. No arm raises it now. -/
  | notModelled (mnemonic : String)
  /-- Raised by a meaning run at a control state or cursor that its row does not name (spec/30_encoding.md R84), which
  `step` never does, as it decodes by state and cursor (log 5). Safe: the model stops. -/
  | notCarriedHere
  deriving DecidableEq, Repr

/-- What a meaning answers. -/
abbrev Effect := Host.Outcome State Fault Refusal

end Sys2Proof.Machine
end

