-- ==== Sys2Proof/Machine/Ops.lean ====
section
/-! DEFINITION. The named operations over the registers, the one operation that enters ERR, and the reading of the host's
inputs. A register an operation does not name keeps its value (spec/00_scope.md R12). -/

namespace Sys2Proof.Machine

/-! ### The host's inputs -/

/-- The inputs of the current cycle: the front of the host's list, or NOP where the host has placed none (log 2). -/
def State.inputs (s : State) : Cycle :=
  match s.host with
  | [] => Cycle.nop
  | c :: _ => c

/-- The registers as they are, with the current cycle's inputs gone by. -/
def State.advance (s : State) : State := { s with host := s.host.tail }

/-- A host program placed from outside (log 3). -/
def State.withProgram (s : State) (program : List HostCommand) : State := { s with host := assemble program }

/-! ### Where the registers stand -/

/-- `busy`: HDR or LEN (spec/10_state.md R21, R33). -/
def State.busy (s : State) : Bool := !s.st.resting

/-- LEN with `pos` in 1 to 4: a length byte is expected. -/
def State.inLengthField (s : State) : Bool := decide (s.st = .len) && lengthPos s.pos

/-- LEN with `pos = 5`: four continuation bytes are taken. -/
def State.pastLengthField (s : State) : Bool := decide (s.st = .len) && decide (s.pos = Config.posMax)

/-- The meaning's next state where its row is carried; elsewhere the instruction does not exist (log 5). -/
def whenCarried (here : Bool) (next : State) : Effect := if here then .next next else .refused .notCarriedHere

/-! ### Register operations -/

/-- Reset: every register to its reset value (spec/70_reset_and_hazards.md R240). The host's inputs are not the block's. -/
def State.clearRegisters (s : State) : State := { State.reset with host := s.host }

/-- START: `st <- HDR` and every other register 0 (spec/43_control.md R182). -/
def State.beginAttempt (s : State) : State := { State.reset with st := .hdr, host := s.host }

/-- Entry into ERR, the one operation for all three kinds (spec/60_exceptions.md R215): `st`, `ekind`, and `evalue` for
InvalidPacketType only. `pos` keeps the bytes taken and nothing else is saved. ERR is left by `beginAttempt` or
`clearRegisters` only (R218). -/
def State.raiseError (s : State) : ParseError → State
  | .invalidPacketType code => { s with st := .err, ekind := .invalidPacketType, evalue := code }
  | .unexpectedEndOfInput => { s with st := .err, ekind := .unexpectedEndOfInput }
  | .malformedVariableLength => { s with st := .err, ekind := .malformedVariableLength }

/-- Byte 0 consumed with a valid code (spec/43_control.md R184, R185). -/
def State.acceptByte0 (s : State) (code flags : Nibble) : State :=
  { s with pos := 1#3, ptype := code, pflags := flags, st := .len }

/-- Byte 0 consumed with an invalid code: the flags nibble is dropped (spec/43_control.md R184, R186). -/
def State.rejectByte0 (s : State) (code : Nibble) : State :=
  { s with pos := 1#3 }.raiseError (.invalidPacketType code)

/-- A length byte consumed: the chunk ORed in, the cursor advanced (spec/43_control.md R188), and DONE unless its
continuation bit says that more follow (R189). -/
def State.takeLengthByte (s : State) (more : Bool) (chunk : Chunk) : State :=
  { s with
    acc := s.acc ||| chunkTerm (lengthIndex s.pos) chunk
    pos := s.pos + 1#3
    st := if more then s.st else .done }

end Sys2Proof.Machine
end

