-- ==== Sys2Proof/Machine/Length.lean ====
section
/-! DEFINITION. The rows of format RLB: the remaining-length bytes, taken in LEN (spec/41_remaining_length.md R134, R135,
R137; 43_control.md R188 to R190). -/

namespace Sys2Proof.Machine

/-- R134: a length byte that says more follow. -/
def execRlCont (chunk : Chunk) (s : State) : Effect :=
  whenCarried s.inLengthField (s.takeLengthByte true chunk)

/-- R135: the terminating length byte. -/
def execRlLast (chunk : Chunk) (s : State) : Effect :=
  whenCarried s.inLengthField (s.takeLengthByte false chunk)

/-- R137: a fifth length byte; its value is not used and it is not consumed. -/
def execRlOver (_byte : Byte) (s : State) : Effect :=
  whenCarried s.pastLengthField (s.raiseError .malformedVariableLength)

/-- The row a length byte selects by its continuation bit (spec/30_encoding.md R77, index 0 to 3). -/
def runLengthByte (b : Byte) (s : State) : Effect :=
  if contBit b then execRlCont (chunkOf b) s else execRlLast (chunkOf b) s

end Sys2Proof.Machine
end

