-- ==== Sys2Proof/Machine/Packet.lean ====
section
/-! DEFINITION. The rows of format B0: byte 0 of the frame, taken in HDR (spec/40_packet_type.md R101 to R116,
43_control.md R184 to R186). -/

namespace Sys2Proof.Machine

/-- R101: code 0 is reserved; InvalidPacketType(0), whatever the flags. -/
def execReserved0 (_flags : Nibble) (s : State) : Effect :=
  whenCarried (decide (s.st = .hdr)) (s.rejectByte0 0#4)

/-- R102: code 1 is valid; the flags are carried unchanged. -/
def execConnect (flags : Nibble) (s : State) : Effect :=
  whenCarried (decide (s.st = .hdr)) (s.acceptByte0 1#4 flags)

/-- R103: code 2 is valid; the flags are carried unchanged. -/
def execConnack (flags : Nibble) (s : State) : Effect :=
  whenCarried (decide (s.st = .hdr)) (s.acceptByte0 2#4 flags)

/-- R104: code 3 is valid; the flags are carried unchanged. -/
def execPublish (flags : Nibble) (s : State) : Effect :=
  whenCarried (decide (s.st = .hdr)) (s.acceptByte0 3#4 flags)

/-- R105: code 4 is valid; the flags are carried unchanged. -/
def execPuback (flags : Nibble) (s : State) : Effect :=
  whenCarried (decide (s.st = .hdr)) (s.acceptByte0 4#4 flags)

/-- R106: code 5 is valid; the flags are carried unchanged. -/
def execPubrec (flags : Nibble) (s : State) : Effect :=
  whenCarried (decide (s.st = .hdr)) (s.acceptByte0 5#4 flags)

/-- R107: code 6 is valid; the flags are carried unchanged. -/
def execPubrel (flags : Nibble) (s : State) : Effect :=
  whenCarried (decide (s.st = .hdr)) (s.acceptByte0 6#4 flags)

/-- R108: code 7 is valid; the flags are carried unchanged. -/
def execPubcomp (flags : Nibble) (s : State) : Effect :=
  whenCarried (decide (s.st = .hdr)) (s.acceptByte0 7#4 flags)

/-- R109: code 8 is valid; the flags are carried unchanged. -/
def execSubscribe (flags : Nibble) (s : State) : Effect :=
  whenCarried (decide (s.st = .hdr)) (s.acceptByte0 8#4 flags)

/-- R110: code 9 is valid; the flags are carried unchanged. -/
def execSuback (flags : Nibble) (s : State) : Effect :=
  whenCarried (decide (s.st = .hdr)) (s.acceptByte0 9#4 flags)

/-- R111: code 10 is valid; the flags are carried unchanged. -/
def execUnsubscribe (flags : Nibble) (s : State) : Effect :=
  whenCarried (decide (s.st = .hdr)) (s.acceptByte0 10#4 flags)

/-- R112: code 11 is valid; the flags are carried unchanged. -/
def execUnsuback (flags : Nibble) (s : State) : Effect :=
  whenCarried (decide (s.st = .hdr)) (s.acceptByte0 11#4 flags)

/-- R113: code 12 is valid; the flags are carried unchanged. -/
def execPingreq (flags : Nibble) (s : State) : Effect :=
  whenCarried (decide (s.st = .hdr)) (s.acceptByte0 12#4 flags)

/-- R114: code 13 is valid; the flags are carried unchanged. -/
def execPingresp (flags : Nibble) (s : State) : Effect :=
  whenCarried (decide (s.st = .hdr)) (s.acceptByte0 13#4 flags)

/-- R115: code 14 is valid; the flags are carried unchanged. -/
def execDisconnect (flags : Nibble) (s : State) : Effect :=
  whenCarried (decide (s.st = .hdr)) (s.acceptByte0 14#4 flags)

/-- R116: code 15 is reserved; InvalidPacketType(15), whatever the flags. -/
def execReserved15 (_flags : Nibble) (s : State) : Effect :=
  whenCarried (decide (s.st = .hdr)) (s.rejectByte0 15#4)

/-- The row that byte 0 selects by its bits 7, 6, 5 and 4 (spec/30_encoding.md R76), run on its flags. -/
def runByte0 (b : Byte) (s : State) : Effect :=
  match b.getLsbD 7, b.getLsbD 6, b.getLsbD 5, b.getLsbD 4 with
  | false, false, false, false => execReserved0 (flagsOf b) s
  | false, false, false, true => execConnect (flagsOf b) s
  | false, false, true, false => execConnack (flagsOf b) s
  | false, false, true, true => execPublish (flagsOf b) s
  | false, true, false, false => execPuback (flagsOf b) s
  | false, true, false, true => execPubrec (flagsOf b) s
  | false, true, true, false => execPubrel (flagsOf b) s
  | false, true, true, true => execPubcomp (flagsOf b) s
  | true, false, false, false => execSubscribe (flagsOf b) s
  | true, false, false, true => execSuback (flagsOf b) s
  | true, false, true, false => execUnsubscribe (flagsOf b) s
  | true, false, true, true => execUnsuback (flagsOf b) s
  | true, true, false, false => execPingreq (flagsOf b) s
  | true, true, false, true => execPingresp (flagsOf b) s
  | true, true, true, false => execDisconnect (flagsOf b) s
  | true, true, true, true => execReserved15 (flagsOf b) s

end Sys2Proof.Machine
end

