-- ==== Sys2Proof/Machine/Control.lean ====
section
/-! DEFINITION. The rows of format CTL: the host's command of one cycle (spec/43_control.md R182 to R194,
70_reset_and_hazards.md R240). Inputs that a row ignores are operands its meaning does not read. -/

namespace Sys2Proof.Machine

/-- R240: reset, from any state and whatever the other inputs. -/
def execReset (_start _inValid _inEoi : Bool) (_inData : Byte) (s : State) : Effect := .next s.clearRegisters

/-- R182: begin a decode attempt, in IDLE, DONE or ERR. -/
def execStart (_inValid _inEoi : Bool) (_inData : Byte) (s : State) : Effect :=
  whenCarried s.st.resting s.beginAttempt

/-- R194: nothing changes in IDLE, DONE or ERR. -/
def execNopIdle (_inValid _inEoi : Bool) (_inData : Byte) (s : State) : Effect := whenCarried s.st.resting s

/-- R184: byte 0 is on `in_data`; its row runs (R185, R186). -/
def execByteHdr (_start _inEoi : Bool) (inData : Byte) (s : State) : Effect := runByte0 inData s

/-- R188: a length byte is on `in_data`; its row runs (R189). -/
def execByteLen (_start _inEoi : Bool) (inData : Byte) (s : State) : Effect := runLengthByte inData s

/-- R190: a fifth length byte is present; `in_data` is not used. -/
def execByteOver (_start _inEoi : Bool) (inData : Byte) (s : State) : Effect := execRlOver inData s

/-- R187: the frame is empty. -/
def execEoiHdr (_start : Bool) (_inData : Byte) (s : State) : Effect :=
  whenCarried (decide (s.st = .hdr)) (s.raiseError .unexpectedEndOfInput)

/-- R191: the frame ends inside the remaining-length field. -/
def execEoiLen (_start : Bool) (_inData : Byte) (s : State) : Effect :=
  whenCarried (decide (s.st = .len)) (s.raiseError .unexpectedEndOfInput)

/-- R192: nothing changes while the host presents neither a byte nor the end of input. -/
def execNopBusy (_start : Bool) (_inData : Byte) (s : State) : Effect := whenCarried s.busy s

end Sys2Proof.Machine
end

