-- ==== Sys2Proof/Machine/Dispatch.lean ====
section
/-! DEFINITION. The one match that gives every instruction its meaning. -/

namespace Sys2Proof.Machine

def exec (i : Instr) (s : State) : Host.Outcome State Fault Refusal :=
  match i with
  | .reserved0 flags => Sys2Proof.Machine.execReserved0 flags s
  | .connect flags => Sys2Proof.Machine.execConnect flags s
  | .connack flags => Sys2Proof.Machine.execConnack flags s
  | .publish flags => Sys2Proof.Machine.execPublish flags s
  | .puback flags => Sys2Proof.Machine.execPuback flags s
  | .pubrec flags => Sys2Proof.Machine.execPubrec flags s
  | .pubrel flags => Sys2Proof.Machine.execPubrel flags s
  | .pubcomp flags => Sys2Proof.Machine.execPubcomp flags s
  | .subscribe flags => Sys2Proof.Machine.execSubscribe flags s
  | .suback flags => Sys2Proof.Machine.execSuback flags s
  | .unsubscribe flags => Sys2Proof.Machine.execUnsubscribe flags s
  | .unsuback flags => Sys2Proof.Machine.execUnsuback flags s
  | .pingreq flags => Sys2Proof.Machine.execPingreq flags s
  | .pingresp flags => Sys2Proof.Machine.execPingresp flags s
  | .disconnect flags => Sys2Proof.Machine.execDisconnect flags s
  | .reserved15 flags => Sys2Proof.Machine.execReserved15 flags s
  | .rlCont chunk => Sys2Proof.Machine.execRlCont chunk s
  | .rlLast chunk => Sys2Proof.Machine.execRlLast chunk s
  | .rlOver byte => Sys2Proof.Machine.execRlOver byte s
  | .reset start inValid inEoi inData => Sys2Proof.Machine.execReset start inValid inEoi inData s
  | .start inValid inEoi inData => Sys2Proof.Machine.execStart inValid inEoi inData s
  | .nopIdle inValid inEoi inData => Sys2Proof.Machine.execNopIdle inValid inEoi inData s
  | .byteHdr start inEoi inData => Sys2Proof.Machine.execByteHdr start inEoi inData s
  | .byteLen start inEoi inData => Sys2Proof.Machine.execByteLen start inEoi inData s
  | .byteOver start inEoi inData => Sys2Proof.Machine.execByteOver start inEoi inData s
  | .eoiHdr start inData => Sys2Proof.Machine.execEoiHdr start inData s
  | .eoiLen start inData => Sys2Proof.Machine.execEoiLen start inData s
  | .nopBusy start inData => Sys2Proof.Machine.execNopBusy start inData s

end Sys2Proof.Machine
end

