-- ==== Sys2Proof/Machine/Flags.lean ====
section
/-! DEFINITION. The status the block shows. It has no condition-code register (spec/10_state.md R30); its status is the
output ports, each a function of the registers and of `rst` alone (R33 to R39). -/

namespace Sys2Proof.Machine

/-- The output ports (spec/10_state.md R33). -/
structure Outputs where
  inReady : Bool
  busy : Bool
  done : Bool
  error : Bool
  errKind : BitVec 2
  errValue : Nibble
  hdrType : Nibble
  hdrFlags : Nibble
  hdrRemLen : Word32
  consumed : Pos
  deriving DecidableEq, Repr

/-- `in_ready` (spec/10_state.md R34). -/
def State.inReady (s : State) (rst : Bool) : Bool :=
  !rst && (decide (s.st = .hdr) || (decide (s.st = .len) && decide (s.pos ≠ Config.posMax)))

/-- The output ports in a cycle with reset input `rst` (spec/10_state.md R33 to R38). -/
def State.outputs (s : State) (rst : Bool) : Outputs where
  inReady := s.inReady rst
  busy := s.busy
  done := decide (s.st = .done)
  error := decide (s.st = .err)
  errKind := if s.st = .err then s.ekind.code else 0#2
  errValue := if s.st = .err then s.evalue else 0#4
  hdrType := if s.st = .done then s.ptype else 0#4
  hdrFlags := if s.st = .done then s.pflags else 0#4
  hdrRemLen := if s.st = .done then s.acc else 0#32
  consumed := s.pos

/-- The output ports in the current cycle. -/
def State.ports (s : State) : Outputs := s.outputs s.inputs.rst

/-- `Consume()`: the byte taken in the current cycle, exactly when `in_valid` and `in_ready` are both 1
(spec/00_scope.md R12, 70_reset_and_hazards.md R247). -/
def State.consumes (s : State) : Option Byte :=
  if s.inputs.inValid && s.inReady s.inputs.rst then some s.inputs.inData else none

end Sys2Proof.Machine
end

