-- ==== Sys2Proof/Machine/Step.lean ====
section
/-! DEFINITION. One step is one clock cycle, up to the rising edge that ends it (spec/43_control.md R180): the row that the
cycle's inputs carry at `st` and `pos` is decoded (30_encoding.md R84) and run, and the cycle's inputs go by. -/

namespace Sys2Proof.Machine

/-- One clock cycle. -/
def step (s : State) : Host.Outcome State Fault Refusal :=
  match decodeCtl s.st s.pos s.inputs.vector s.inputs.inData with
  | .ok i => exec i s.advance
  | .error _ => .fault .noRuleForPos

/-- The registers where the bits of a table word are carried: as they are if they are carried there, else as START leaves
them for a row of HDR, or as reset leaves them for a row of the resting states. -/
def State.placeFor (s : State) (t : TableRead) : State :=
  if (decode s.st s.pos t.word).toOption = (decode t.st t.pos t.word).toOption then s
  else match t.st with
    | .hdr => s.beginAttempt
    | _ => s.clearRegisters

/-- `s` with the instruction of a bare table word presented by the host in the very next cycle (log 6). -/
def State.withFetchWord (s : State) (nbits w : Nat) : State :=
  match readTableWord nbits w with
  | none => s
  | some t => { s.placeFor t with host := t.word.cycle :: s.host }

end Sys2Proof.Machine
end

