-- ==== Sys2Proof/Machine/Parser.lean ====
section
/-! DEFINITION. The functional layer: PacketTypeResolver (spec/40_packet_type.md), RemainingLengthDecoder
(spec/41_remaining_length.md) and FixedHeaderParser (spec/42_fixed_header.md). -/

namespace Sys2Proof.Machine

/-- `ResolvePacketType(c)` (spec/40_packet_type.md R100). -/
def resolvePacketType (c : Nibble) : Parsed PacketType :=
  match packetOf c with
  | some t => .ok t
  | none => .err (.invalidPacketType c)

/-- The loop of spec/41_remaining_length.md R131, with `left` of its four chunk iterations still to run. With none left
(`i = 4`) the byte's existence alone is tested: the end of input is found first, then the fifth byte (R138). -/
def lengthLoop (inp : Frame) (off : Nat) : (left i : Nat) → Word32 → Parsed (Word32 × Nat)
  | 0, i, _ => if avail inp (off + i) then .err .malformedVariableLength else .err .unexpectedEndOfInput
  | left + 1, i, value =>
    match memRead inp (off + i) with
    | none => .err .unexpectedEndOfInput
    | some b =>
      let value' := value + chunkTerm i (chunkOf b)
      if contBit b then lengthLoop inp off left (i + 1) value' else .ok (value', i + 1)

/-- `DecodeRemainingLength(in, off)`: the value and the count of bytes consumed, or an error (R130, R131). -/
def decodeRemainingLength (inp : Frame) (off : Nat) : Parsed (Word32 × Nat) :=
  lengthLoop inp off Config.rlMaxBytes 0 0#32

/-- `ParseFixedHeader(in)`: the header and the remainder, or an error (spec/42_fixed_header.md R160). -/
def parseFixedHeader (inp : Frame) : Parsed (FixedHeader × Frame) :=
  match memRead inp 0 with
  | none => .err .unexpectedEndOfInput
  | some b0 =>
    match resolvePacketType (typeCode b0) with
    | .err e => .err e
    | .ok t =>
      match decodeRemainingLength inp 1 with
      | .err e => .err e
      | .ok (v, n) => .ok (⟨t, flagsOf b0, v⟩, suffixFrom inp (1 + n))

end Sys2Proof.Machine
end

