-- ==== Sys2Proof/Safety.lean ====
section
/-! DEFINITION. The terms the claims use: the invariant of reachable states, the hosts of the equivalence rule, and the
shapes of a remaining-length field. Nothing here is part of the machine. -/

namespace Sys2Proof.Machine

/-! ### The invariant (spec/10_state.md R24, R25, R41; 60_exceptions.md R215) -/

/-- Every register but `st` at 0. -/
abbrev State.Cleared (s : State) : Prop :=
  s.pos = 0#3 ∧ s.acc = 0#32 ∧ s.ptype = 0#4 ∧ s.pflags = 0#4 ∧ s.ekind = .noError ∧ s.evalue = 0#4

/-- A valid byte 0 has been taken, and `acc` holds no more than the chunks of the `pos − 1` length bytes taken since. -/
abbrev State.InField (s : State) : Prop :=
  1 ≤ s.pos.toNat ∧ s.pos.toNat ≤ 5 ∧ s.acc.toNat < 128 ^ (s.pos.toNat - 1) ∧ validType s.ptype = true

/-- What the registers hold in ERR, by kind. The rows are those of R41 and R215, joined (DEDUCED, log 18). -/
abbrev State.ErrorForm (s : State) : Prop :=
  (s.ekind = .invalidPacketType ∧ (s.evalue = 0#4 ∨ s.evalue = 15#4)
    ∧ s.pos = 1#3 ∧ s.acc = 0#32 ∧ s.ptype = 0#4 ∧ s.pflags = 0#4) ∨
  (s.ekind = .unexpectedEndOfInput ∧ s.evalue = 0#4
    ∧ ((s.pos = 0#3 ∧ s.acc = 0#32 ∧ s.ptype = 0#4 ∧ s.pflags = 0#4) ∨ s.InField)) ∨
  (s.ekind = .malformedVariableLength ∧ s.evalue = 0#4 ∧ s.pos = 5#3 ∧ s.InField)

/-- What holds in every reachable state (R41). -/
abbrev State.Inv (s : State) : Prop :=
  (s.st = .idle → s.Cleared) ∧
  (s.st = .hdr → s.Cleared) ∧
  (s.st = .len → s.InField ∧ s.ekind = .noError ∧ s.evalue = 0#4) ∧
  (s.st = .done → s.InField ∧ 2 ≤ s.pos.toNat ∧ s.ekind = .noError ∧ s.evalue = 0#4) ∧
  (s.st = .err → s.ErrorForm)

/-- A START that is taken in this cycle (R182). -/
abbrev State.startTaken (s : State) : Prop := s.inputs.rst = false ∧ s.inputs.start = true ∧ s.st.resting = true

/-! ### Hosts that present a frame (spec/43_control.md R196) -/

/-- The host presents the byte at the cursor, or the end of input where the frame has none (not a NOP). -/
abbrev State.offersFrom (s : State) (frame : Frame) : Prop :=
  s.inputs.rst = false ∧
  ((s.inputs.inValid = true ∧ memRead frame s.pos.toNat = some s.inputs.inData) ∨
   (avail frame s.pos.toNat = false ∧ s.inputs.inValid = false ∧ s.inputs.inEoi = true))

/-- The host presents nothing. -/
abbrev State.offersNothing (s : State) : Prop :=
  s.inputs.rst = false ∧ s.inputs.inValid = false ∧ s.inputs.inEoi = false

/-- A run of cycles, each of them busy, in which the host presents `frame` as R196 says, with `n` cycles that are no NOP. -/
inductive BusyRun (frame : Frame) : Nat → State → State → Prop
  | nil (s : State) : BusyRun frame 0 s s
  | nop (n : Nat) (s u t : State) : s.busy = true → s.offersNothing → step s = .next u →
      BusyRun frame n u t → BusyRun frame n s t
  | act (n : Nat) (s u t : State) : s.busy = true → s.offersFrom frame → step s = .next u →
      BusyRun frame n u t → BusyRun frame (n + 1) s t

/-- `k` cycles, one after another, up to the first stop. -/
def runCycles : Nat → State → Effect
  | 0, s => .next s
  | k + 1, s =>
    match runCycles k s with
    | .next u => step u
    | .fault f => .fault f
    | .refused r => .refused r

/-! ### Remaining-length fields -/

/-- `Σ chunk[i] × 128^i` over the bytes, the first at index `i` (spec/41_remaining_length.md R133). -/
def chunkSum (i : Nat) : List Byte → Nat
  | [] => 0
  | b :: bs => (chunkOf b).toNat * 128 ^ i + chunkSum (i + 1) bs

/-- The last byte has C = 0 and every byte before it C = 1 (spec/30_encoding.md R73). -/
def completeField : List Byte → Bool
  | [] => false
  | [b] => !contBit b
  | b :: bs => contBit b && completeField bs

/-- `MinEnc` with at most `k` bytes (spec/41_remaining_length.md R142). -/
def minEncWithin : (k : Nat) → Nat → List Byte
  | 0, _ => []
  | k + 1, v =>
    if v < 128 then [byteRlb false (BitVec.ofNat 7 v)]
    else byteRlb true (BitVec.ofNat 7 v) :: minEncWithin k (v / 128)

/-- `MinEnc(v)`, for statements and vectors only: no encoder is part of the block (R142). -/
def minEnc (v : Nat) : List Byte := minEncWithin Config.rlMaxBytes v

/-! ### The template of a packet-type rule (spec/40_packet_type.md R101 to R116) -/

/-- A rule of a valid code: its resolver result, its encoding, the parser's use of it, and its register writes in HDR. -/
def ValidCodeRule (row : Nibble → Instr) (code : Nibble) (t : PacketType) : Prop :=
  resolvePacketType code = .ok t ∧ packetCode t = code ∧
  ∀ flags : Nibble,
    (∀ pos, decode .hdr pos (.b0 (byteB0 code flags)) = .ok (row flags)) ∧
    (∀ rest : Frame, parseFixedHeader (byteB0 code flags :: rest)
      = match decodeRemainingLength (byteB0 code flags :: rest) 1 with
        | .ok (v, n) => .ok (⟨t, flags, v⟩, suffixFrom (byteB0 code flags :: rest) (1 + n))
        | .err e => .err e) ∧
    (∀ s : State, s.st = .hdr →
      exec (row flags) s = .next { s with st := .len, pos := 1#3, ptype := code, pflags := flags })

/-- A rule of a reserved code: always `InvalidPacketType`, whatever the flags and whatever follows byte 0. -/
def ReservedCodeRule (row : Nibble → Instr) (code : Nibble) : Prop :=
  resolvePacketType code = .err (.invalidPacketType code) ∧
  ∀ flags : Nibble,
    (∀ pos, decode .hdr pos (.b0 (byteB0 code flags)) = .ok (row flags)) ∧
    (∀ rest : Frame, parseFixedHeader (byteB0 code flags :: rest) = .err (.invalidPacketType code)) ∧
    (∀ s : State, s.st = .hdr →
      exec (row flags) s
        = .next { s with st := .err, pos := 1#3, ekind := .invalidPacketType, evalue := code })

end Sys2Proof.Machine
end

