-- ==== Sys2Proof/Certificates/Slice0/Obligations.lean ====
section
/-! DEFINITION. The statements for the provers, from the numbered rules of spec/. Premises that rule out unreachable states
are the invariant `State.Inv` (kept by every step, `StepKeepsInvariant`) or the place a row names. -/

open Sys2Proof Sys2Proof.Machine

/-! ### Encoding -/

/-- Words written out from spec/30_encoding.md R71, R72, R74, R76, R77 and R84, one or more of each family, are the
instructions they stand for. -/
def Obligations.WrittenOutWordsDecode : Prop :=
  decode .hdr 0#3 (.b0 0b00111100#8) = .ok (.publish 0b1100#4) ∧
  decode .hdr 0#3 (.b0 0b11110111#8) = .ok (.reserved15 0b0111#4) ∧
  decode .len 1#3 (.rlb 0b11000001#8) = .ok (.rlCont 0b1000001#7) ∧
  decode .len 4#3 (.rlb 0b01111111#8) = .ok (.rlLast 0b1111111#7) ∧
  decode .len 5#3 (.rlb 0b00000001#8) = .ok (.rlOver 0b00000001#8) ∧
  decode .len 3#3 (.ctl 0b1010#4 0x00#8) = .ok (.reset false true false 0x00#8) ∧
  decode .done 3#3 (.ctl 0b0110#4 0x20#8) = .ok (.start true false 0x20#8) ∧
  decode .idle 0#3 (.ctl 0b0010#4 0x20#8) = .ok (.nopIdle true false 0x20#8) ∧
  decode .hdr 0#3 (.ctl 0b0011#4 0x10#8) = .ok (.byteHdr false true 0x10#8) ∧
  decode .len 2#3 (.ctl 0b0010#4 0x02#8) = .ok (.byteLen false false 0x02#8) ∧
  decode .len 5#3 (.ctl 0b0010#4 0x01#8) = .ok (.byteOver false false 0x01#8) ∧
  decode .hdr 0#3 (.ctl 0b0001#4 0x00#8) = .ok (.eoiHdr false 0x00#8) ∧
  decode .len 5#3 (.ctl 0b0001#4 0x00#8) = .ok (.eoiLen false 0x00#8) ∧
  decode .len 3#3 (.ctl 0b0100#4 0x00#8) = .ok (.nopBusy true 0x00#8)

/-- Decode of encode, for every instruction with every operand, wherever its row is carried (R76, R77, R84). -/
def Obligations.DecodeOfEncode : Prop :=
  ∀ (st : CtlState) (pos : Pos) (i : Instr), i.wellFormed st pos = true → decode st pos (encode i) = .ok i

/-- Encode of decode: no two words are one instruction, and what is decoded is carried where it was decoded. -/
def Obligations.EncodeOfDecode : Prop :=
  ∀ (st : CtlState) (pos : Pos) (w : Encoded) (i : Instr),
    decode st pos w = .ok i → encode i = w ∧ i.wellFormed st pos = true

/-- R84: the command of a cycle is the first row, top to bottom, whose state and pattern match. Where no row matches (LEN
with `pos` 0, 6 or 7 and a byte present) the decoder rejects by name; that is the model's reading (log 4). -/
def Obligations.CommandIsFirstMatchingRow : Prop :=
  ∀ (st : CtlState) (pos : Pos) (v : BitVec 4) (d : Byte),
    match ctlRows.find? (fun row => row.carries st pos v) with
    | some row => ∃ i, decodeCtl st pos v d = .ok i ∧ i.mnemonic = row.mnemonic ∧ encode i = .ctl v d
    | none => decodeCtl st pos v d = .error .noRowForPos

/-! ### The step -/

/-- A step runs the decoded instruction on the same registers, with the cycle's inputs gone by. -/
def Obligations.StepRunsDecodedCommand : Prop :=
  ∀ (s : State) (i : Instr),
    decodeCtl s.st s.pos s.inputs.vector s.inputs.inData = .ok i →
    step s = exec i { s with host := s.host.tail }

/-- R181: with `rst = 0` and a cursor that can occur with the state, exactly the rule of R181's table runs, on the inputs
as they are. `start` takes no part in HDR and LEN. -/
def Obligations.StepRunsTheRuleOfTheTable : Prop :=
  ∀ (s : State) (st v e : Bool) (d : Byte) (rest : List Cycle),
    s.host = ⟨false, st, v, e, d⟩ :: rest →
    (s.st = .len → 1 ≤ s.pos.toNat ∧ s.pos.toNat ≤ 5) →
    step s = exec
      (if s.st.resting then (if st then .start v e d else .nopIdle v e d)
       else if s.st = .hdr then
         (if v then .byteHdr st e d else if e then .eoiHdr st d else .nopBusy st d)
       else if v then (if s.pos = 5#3 then .byteOver st e d else .byteLen st e d)
       else if e then .eoiLen st d
       else .nopBusy st d) { s with host := rest }

/-- The model stops in one case only, by one fault (log 4): a byte presented in LEN with `pos` 0, 6 or 7, without reset.
No step refuses. -/
def Obligations.StepStopsOnlyWithoutARow : Prop :=
  ∀ s : State,
    (∀ r, step s ≠ .refused r) ∧
    (step s = .fault .noRuleForPos ↔
      s.inputs.rst = false ∧ s.st = .len ∧ s.inputs.inValid = true ∧ (s.pos = 0#3 ∨ s.pos = 6#3 ∨ s.pos = 7#3))

/-- An instruction completes exactly where its row is carried, and elsewhere is refused by one name (log 5, the model's
choice: `step` never runs it there). -/
def Obligations.InstructionCompletesExactlyWhereCarried : Prop :=
  ∀ (i : Instr) (s : State),
    (i.wellFormed s.st s.pos = true → ∃ t, exec i s = .next t) ∧
    (i.wellFormed s.st s.pos = false → exec i s = .refused .notCarriedHere)

/-- The CTL row of a byte runs the B0 or RLB row of that byte (R144; 43_control.md R184, R188, R190). -/
def Obligations.ByteCommandRunsItsByteRow : Prop :=
  ∀ (s : State) (st e : Bool) (d : Byte),
    (s.st = .hdr → exec (.byteHdr st e d) s = exec (decodeB0 d) s) ∧
    (s.st = .len → ∀ i, 1 ≤ s.pos.toNat → s.pos.toNat ≤ 4 → decodeRlb (s.pos.toNat - 1) d = .ok i →
      exec (.byteLen st e d) s = exec i s) ∧
    (s.st = .len → ∀ i, s.pos = 5#3 → decodeRlb 4 d = .ok i → exec (.byteOver st e d) s = exec i s)

/-! ### Reset and START -/

/-- R40: the reset state and the outputs it shows. -/
def Obligations.ResetStateAndOutputs : Prop :=
  State.reset.st = .idle ∧ State.reset.pos = 0#3 ∧ State.reset.acc = 0#32 ∧ State.reset.ptype = 0#4 ∧
  State.reset.pflags = 0#4 ∧ State.reset.ekind = .noError ∧ State.reset.evalue = 0#4 ∧
  ∀ rst, State.reset.outputs rst = ⟨false, false, false, false, 0#2, 0#4, 0#4, 0#4, 0#32, 0#3⟩

/-- R240: a cycle with `rst = 1` leads from any state whatever, reachable or not, to the reset state, whatever the other
inputs; `in_ready` is 0 and no byte is consumed in that cycle, and every output is 0 in the next one. -/
def Obligations.ResetFromAnyState : Prop :=
  (∀ s : State, s.inputs.rst = true →
    step s = .next ⟨.idle, 0#3, 0#32, 0#4, 0#4, .noError, 0#4, s.host.tail⟩ ∧
    s.ports.inReady = false ∧ s.consumes = none ∧
    ∀ rst, (⟨.idle, 0#3, 0#32, 0#4, 0#4, .noError, 0#4, s.host.tail⟩ : State).outputs rst
      = ⟨false, false, false, false, 0#2, 0#4, 0#4, 0#4, 0#32, 0#3⟩) ∧
  (∀ (s : State) (st v e : Bool) (d : Byte),
    exec (.reset st v e d) s = .next ⟨.idle, 0#3, 0#32, 0#4, 0#4, .noError, 0#4, s.host⟩)

/-- R182: START in IDLE, DONE or ERR clears every register and enters HDR; the byte and end-of-input ports are ignored, no
byte is consumed, and every output is then 0 but `busy` and `in_ready`. -/
def Obligations.StartBeginsAttempt : Prop :=
  ∀ s : State, s.st.resting = true →
    (∀ (v e : Bool) (d : Byte),
      exec (.start v e d) s = .next ⟨.hdr, 0#3, 0#32, 0#4, 0#4, .noError, 0#4, s.host⟩) ∧
    (s.inputs.rst = false → s.inputs.start = true →
      step s = .next ⟨.hdr, 0#3, 0#32, 0#4, 0#4, .noError, 0#4, s.host.tail⟩ ∧ s.consumes = none ∧
      (⟨.hdr, 0#3, 0#32, 0#4, 0#4, .noError, 0#4, s.host.tail⟩ : State).outputs false
        = ⟨true, true, false, false, 0#2, 0#4, 0#4, 0#4, 0#32, 0#3⟩)

/-- R183: in HDR and LEN the `start` input has no effect. -/
def Obligations.StartWhileBusyHasNoEffect : Prop :=
  ∀ (s : State) (c : Cycle) (rest : List Cycle) (b : Bool),
    s.busy = true → s.host = c :: rest →
    step { s with host := { c with start := b } :: rest } = step s

/-! ### Holding -/

/-- R194: with `start = 0` no register changes in IDLE, DONE or ERR, whatever the byte and end-of-input ports, and no byte
is consumed. -/
def Obligations.RestingCycleChangesNothing : Prop :=
  ∀ s : State, s.st.resting = true →
    (∀ (v e : Bool) (d : Byte), exec (.nopIdle v e d) s = .next s) ∧
    (s.inputs.rst = false → s.inputs.start = false →
      step s = .next { s with host := s.host.tail } ∧ s.consumes = none)

/-- R192: with neither a byte nor the end of input no register changes in HDR or LEN, whatever `start` and `in_data`, and no
byte is consumed. -/
def Obligations.BusyCycleWithoutInputChangesNothing : Prop :=
  ∀ s : State, s.busy = true →
    (∀ (st : Bool) (d : Byte), exec (.nopBusy st d) s = .next s) ∧
    (s.inputs.rst = false → s.inputs.inValid = false → s.inputs.inEoi = false →
      step s = .next { s with host := s.host.tail } ∧ s.consumes = none)

/-- R193: `in_eoi` is read only in HDR and LEN, and only in a cycle with `in_valid = 0`. -/
def Obligations.EndOfInputReadOnlyWithoutAByte : Prop :=
  ∀ (s : State) (c : Cycle) (rest : List Cycle) (b : Bool),
    s.host = c :: rest → c.inValid = true ∨ s.st.resting = true →
    step { s with host := { c with inEoi := b } :: rest } = step s

/-- R247: `in_data` is sampled only at a Consume(): where no byte is taken, the step is the same for every `in_data`. -/
def Obligations.DataSampledOnlyWhenConsumed : Prop :=
  ∀ (s : State) (c : Cycle) (rest : List Cycle) (d : Byte),
    s.host = c :: rest → s.consumes = none →
    step { s with host := { c with inData := d } :: rest } = step s

/-! ### Byte 0 -/

/-- R184, R185, R186: byte 0 is consumed in HDR; a valid code is kept with its flags and leads to LEN, an invalid one leads
to ERR with the code in `evalue` and the type and flags registers untouched. -/
def Obligations.ByteZeroTaken : Prop :=
  ∀ (s : State) (st e : Bool) (d : Byte), s.st = .hdr →
    exec (.byteHdr st e d) s = .next
      (if typeCode d ≠ 0#4 ∧ typeCode d ≠ 15#4 then
        { s with st := .len, pos := 1#3, ptype := typeCode d, pflags := flagsOf d }
       else { s with st := .err, pos := 1#3, ekind := .invalidPacketType, evalue := typeCode d }) ∧
    (∀ rest, s.host = ⟨false, st, true, e, d⟩ :: rest → s.consumes = some d)

/-- R101 and R116: the two reserved codes. -/
def Obligations.ReservedCodesRejected : Prop :=
  ReservedCodeRule .reserved0 0#4 ∧ ReservedCodeRule .reserved15 15#4

/-- R102 to R104: codes 1 to 3, which the source names. -/
def Obligations.CodesOneToThreeAccepted : Prop :=
  ValidCodeRule .connect 1#4 .connect ∧ ValidCodeRule .connack 2#4 .connack ∧ ValidCodeRule .publish 3#4 .publish

/-- R105 to R115: codes 4 to 14. Their names are labels from general knowledge (93_implementation_defined.md I1; log 9,
PRESUMED): only the codes carry meaning. -/
def Obligations.CodesFourToFourteenAccepted : Prop :=
  ValidCodeRule .puback 4#4 .puback ∧ ValidCodeRule .pubrec 5#4 .pubrec ∧ ValidCodeRule .pubrel 6#4 .pubrel ∧
  ValidCodeRule .pubcomp 7#4 .pubcomp ∧ ValidCodeRule .subscribe 8#4 .subscribe ∧
  ValidCodeRule .suback 9#4 .suback ∧ ValidCodeRule .unsubscribe 10#4 .unsubscribe ∧
  ValidCodeRule .unsuback 11#4 .unsuback ∧ ValidCodeRule .pingreq 12#4 .pingreq ∧
  ValidCodeRule .pingresp 13#4 .pingresp ∧ ValidCodeRule .disconnect 14#4 .disconnect

/-- R187: the end of input in HDR is the empty frame, and nothing else leads to ERR with no byte consumed (in states that
meet the invariant). -/
def Obligations.EmptyFrameIsAnError : Prop :=
  (∀ (s : State) (st : Bool) (d : Byte), s.st = .hdr →
    exec (.eoiHdr st d) s = .next { s with st := .err, ekind := .unexpectedEndOfInput } ∧
    (∀ rest, s.host = ⟨false, st, false, true, d⟩ :: rest → s.consumes = none)) ∧
  (∀ s t : State, s.Inv → step s = .next t → s.st ≠ .err → t.st = .err → t.pos = 0#3 →
    s.st = .hdr ∧ s.inputs.inValid = false ∧ s.inputs.inEoi = true ∧ t.ekind = .unexpectedEndOfInput)

/-! ### Length bytes -/

/-- R188, R189: a length byte in LEN with `pos` in 1 to 4. In a state that meets the invariant the OR adds the chunk
exactly, with no carry, and bits 31:28 of the accumulator stay 0 (R25). -/
def Obligations.LengthByteTaken : Prop :=
  ∀ (s : State) (st e : Bool) (d : Byte), s.st = .len → 1 ≤ s.pos.toNat → s.pos.toNat ≤ 4 →
    exec (.byteLen st e d) s = .next
      { s with
        acc := s.acc ||| ((chunkOf d).setWidth 32 <<< (7 * (s.pos.toNat - 1)))
        pos := s.pos + 1#3
        st := if d.getLsbD 7 then .len else .done } ∧
    (∀ rest, s.host = ⟨false, st, true, e, d⟩ :: rest → s.consumes = some d) ∧
    (s.Inv →
      (s.acc ||| ((chunkOf d).setWidth 32 <<< (7 * (s.pos.toNat - 1)))).toNat
        = s.acc.toNat + (chunkOf d).toNat * 128 ^ (s.pos.toNat - 1) ∧
      (s.acc ||| ((chunkOf d).setWidth 32 <<< (7 * (s.pos.toNat - 1)))).extractLsb' 28 4 = 0#4)

/-- The hardware side of R134 and R135: the two length-byte rows, each with every chunk, as R188 and R189 write it. -/
def Obligations.LengthRowsWriteAccumulator : Prop :=
  ∀ (s : State) (chunk : Chunk), s.st = .len → 1 ≤ s.pos.toNat → s.pos.toNat ≤ 4 →
    exec (.rlCont chunk) s = .next
      { s with acc := s.acc ||| (chunk.setWidth 32 <<< (7 * (s.pos.toNat - 1))), pos := s.pos + 1#3 } ∧
    exec (.rlLast chunk) s = .next
      { s with acc := s.acc ||| (chunk.setWidth 32 <<< (7 * (s.pos.toNat - 1))), pos := s.pos + 1#3, st := .done }

/-- R190 and the hardware side of R137: a fifth length byte is an error whatever its value, is not consumed, and leaves the
cursor at 5 and the accumulator as it was. -/
def Obligations.FifthLengthByteIsAnError : Prop :=
  ∀ (s : State) (st e : Bool) (d : Byte), s.st = .len → s.pos = 5#3 →
    exec (.byteOver st e d) s = .next { s with st := .err, ekind := .malformedVariableLength } ∧
    exec (.rlOver d) s = .next { s with st := .err, ekind := .malformedVariableLength } ∧
    (∀ rest, s.host = ⟨false, st, true, e, d⟩ :: rest → s.consumes = none ∧ s.ports.inReady = false)

/-- R191: the end of input in LEN is UnexpectedEndOfInput at every cursor, 5 included. -/
def Obligations.EndOfInputInFieldIsAnError : Prop :=
  ∀ (s : State) (st : Bool) (d : Byte), s.st = .len →
    exec (.eoiLen st d) s = .next { s with st := .err, ekind := .unexpectedEndOfInput } ∧
    (∀ rest, s.host = ⟨false, st, false, true, d⟩ :: rest → s.consumes = none)

/-! ### Whole-machine rules -/

/-- R41 and R215 as one invariant: every step from a state that meets it leads to a state that meets it. -/
def Obligations.StepKeepsInvariant : Prop :=
  ∀ s t : State, s.Inv → step s = .next t → t.Inv

/-- The reset state meets the invariant. -/
def Obligations.ResetMeetsInvariant : Prop := State.reset.Inv

/-- From every state that meets the invariant, with any inputs, the step completes: no stop is reachable. -/
def Obligations.StepCompletesFromInvariant : Prop :=
  ∀ s : State, s.Inv → ∃ t, step s = .next t

/-- R22: `st` changes only by START, byte 0, a length byte, the end of input, or reset, and only along the listed
transitions. -/
def Obligations.ControlStateTransitions : Prop :=
  ∀ s t : State, step s = .next t →
    t.st = s.st ∨
    (s.inputs.rst = true ∧ t.st = .idle) ∨
    (s.inputs.rst = false ∧ s.inputs.start = true ∧ (s.st = .idle ∨ s.st = .done ∨ s.st = .err) ∧ t.st = .hdr) ∨
    (s.inputs.rst = false ∧ s.st = .hdr ∧ s.inputs.inValid = true ∧ (t.st = .len ∨ t.st = .err)) ∨
    (s.inputs.rst = false ∧ s.st = .hdr ∧ s.inputs.inValid = false ∧ s.inputs.inEoi = true ∧ t.st = .err) ∨
    (s.inputs.rst = false ∧ s.st = .len ∧ s.inputs.inValid = true ∧ s.pos ≠ 5#3 ∧ t.st = .done) ∨
    (s.inputs.rst = false ∧ s.st = .len ∧ s.inputs.inValid = true ∧ s.pos = 5#3 ∧ t.st = .err) ∨
    (s.inputs.rst = false ∧ s.st = .len ∧ s.inputs.inValid = false ∧ s.inputs.inEoi = true ∧ t.st = .err)

/-- R23: `pos` is set to 0 by START and by reset, is incremented by exactly 1 at each Consume(), and changes in no other
way. The premise on HDR is the invariant's (`pos` is 0 there). -/
def Obligations.CursorCountsConsumedBytes : Prop :=
  ∀ s t : State, (s.st = .hdr → s.pos = 0#3) → step s = .next t →
    t.pos = if s.inputs.rst = true ∨ s.startTaken then 0#3
            else if s.consumes.isSome then s.pos + 1#3 else s.pos

/-- R26, R27: `ptype` and `pflags` are written only by an accepted byte 0 (with its two nibbles, on the way to LEN), and
set to 0 by START and reset; in DONE the code is 1 to 14 (in states that meet the invariant). -/
def Obligations.TypeAndFlagsWrittenByByteZero : Prop :=
  (∀ s t : State, step s = .next t →
    (t.ptype = s.ptype ∧ t.pflags = s.pflags ∧ s.inputs.rst = false ∧ ¬ s.startTaken) ∨
    ((s.inputs.rst = true ∨ s.startTaken) ∧ t.ptype = 0#4 ∧ t.pflags = 0#4) ∨
    (∃ b, s.st = .hdr ∧ s.consumes = some b ∧ 1 ≤ (typeCode b).toNat ∧ (typeCode b).toNat ≤ 14 ∧
      t.ptype = typeCode b ∧ t.pflags = flagsOf b ∧ t.st = .len)) ∧
  (∀ s : State, s.Inv → s.st = .done → 1 ≤ s.ptype.toNat ∧ s.ptype.toNat ≤ 14)

/-- R25: `acc` is written only by a length byte consumed in LEN, and set to 0 by START and reset. -/
def Obligations.AccumulatorWrittenByLengthBytes : Prop :=
  ∀ s t : State, step s = .next t →
    (t.acc = s.acc ∧ s.inputs.rst = false ∧ ¬ s.startTaken) ∨
    ((s.inputs.rst = true ∨ s.startTaken) ∧ t.acc = 0#32) ∨
    (∃ b, s.st = .len ∧ s.consumes = some b ∧
      t.acc = s.acc ||| ((chunkOf b).setWidth 32 <<< (7 * (s.pos.toNat - 1))))

/-- R28: `ekind` is written with a non-zero value only in a transition into ERR, START and reset set it to 0, and it is
non-zero exactly in ERR (in states that meet the invariant); its four codes are R28's. -/
def Obligations.ErrorKindWrittenOnErrorEntry : Prop :=
  (∀ s t : State, step s = .next t → t.ekind ≠ s.ekind → t.ekind ≠ .noError → s.st ≠ .err ∧ t.st = .err) ∧
  (∀ s t : State, step s = .next t → s.inputs.rst = true ∨ s.startTaken → t.ekind = .noError) ∧
  (∀ s : State, s.Inv → (s.ekind.code ≠ 0#2 ↔ s.st = .err)) ∧
  ErrKind.noError.code = 0#2 ∧ ErrKind.invalidPacketType.code = 1#2 ∧
  ErrKind.unexpectedEndOfInput.code = 2#2 ∧ ErrKind.malformedVariableLength.code = 3#2

/-- R29: `evalue` is written only where byte 0 is rejected, with its code, 0 or 15; START and reset set it to 0; for every
other error kind it is 0 (in states that meet the invariant). -/
def Obligations.ErrorValueWrittenOnRejection : Prop :=
  (∀ s t : State, step s = .next t →
    (t.evalue = s.evalue ∧ s.inputs.rst = false ∧ ¬ s.startTaken) ∨
    ((s.inputs.rst = true ∨ s.startTaken) ∧ t.evalue = 0#4) ∨
    (∃ b, s.st = .hdr ∧ s.consumes = some b ∧ (typeCode b = 0#4 ∨ typeCode b = 15#4) ∧
      t.evalue = typeCode b ∧ t.ekind = .invalidPacketType ∧ t.st = .err)) ∧
  (∀ s : State, s.Inv → s.ekind ≠ .invalidPacketType → s.evalue = 0#4)

/-- R215: what entering ERR writes, for every instruction that does so, and the frame of that entry: the accumulator, the
type and the flags are left as they are, `evalue` changes for InvalidPacketType only, and `pos` changes only where byte 0
is consumed. -/
def Obligations.ErrorEntryFrame : Prop :=
  ∀ (i : Instr) (s t : State), exec i s = .next t → s.st ≠ .err → t.st = .err →
    t.ekind ≠ .noError ∧ t.acc = s.acc ∧ t.ptype = s.ptype ∧ t.pflags = s.pflags ∧
    (t.ekind = .invalidPacketType → s.st = .hdr ∧ t.pos = 1#3 ∧ (t.evalue = 0#4 ∨ t.evalue = 15#4)) ∧
    (t.ekind ≠ .invalidPacketType → t.pos = s.pos ∧ t.evalue = s.evalue) ∧
    (t.ekind = .malformedVariableLength → t.pos = 5#3)

/-- R218: ERR, with every register, is held until START or reset. -/
def Obligations.ErrorHeldUntilStartOrReset : Prop :=
  ∀ s t : State, s.st = .err → step s = .next t →
    (s.inputs.rst = true ∧ t.st = .idle) ∨
    (s.inputs.rst = false ∧ s.inputs.start = true ∧ t.st = .hdr ∧ t.Cleared) ∨
    (s.inputs.rst = false ∧ s.inputs.start = false ∧ t = { s with host := s.host.tail } ∧
      ∀ rst, t.outputs rst = s.outputs rst)

/-- No instruction changes the inputs the host has placed (the frame of the model's own field, log 1). -/
def Obligations.InstructionsKeepHostInputs : Prop :=
  ∀ (i : Instr) (s t : State), exec i s = .next t → t.host = s.host

/-- The frame of the byte rows: byte 0 leaves the accumulator (and, accepted, the error registers; rejected, the type and
flags) alone, and a consumed length byte leaves the type, flags and error registers alone. -/
def Obligations.ByteRowsFrame : Prop :=
  ∀ (s t : State) (st e : Bool) (d : Byte),
    (exec (.byteHdr st e d) s = .next t →
      t.acc = s.acc ∧
      (t.st = .len → t.ekind = s.ekind ∧ t.evalue = s.evalue) ∧
      (t.st = .err → t.ptype = s.ptype ∧ t.pflags = s.pflags)) ∧
    (exec (.byteLen st e d) s = .next t →
      t.ptype = s.ptype ∧ t.pflags = s.pflags ∧ t.ekind = s.ekind ∧ t.evalue = s.evalue)

/-! ### Outputs -/

/-- R33 to R38: the output ports, state by state. -/
def Obligations.OutputPorts : Prop :=
  ∀ (s : State) (rst : Bool),
    (s.outputs rst).inReady = (!rst && (decide (s.st = .hdr) || (decide (s.st = .len) && decide (s.pos ≠ 5#3)))) ∧
    (s.outputs rst).busy = (decide (s.st = .hdr) || decide (s.st = .len)) ∧
    (s.outputs rst).done = decide (s.st = .done) ∧
    (s.outputs rst).error = decide (s.st = .err) ∧
    (s.outputs rst).consumed = s.pos ∧
    (s.st = .err → (s.outputs rst).errKind = s.ekind.code ∧ (s.outputs rst).errValue = s.evalue) ∧
    (s.st ≠ .err → (s.outputs rst).errKind = 0#2 ∧ (s.outputs rst).errValue = 0#4) ∧
    (s.st = .done → (s.outputs rst).hdrType = s.ptype ∧ (s.outputs rst).hdrFlags = s.pflags ∧
      (s.outputs rst).hdrRemLen = s.acc) ∧
    (s.st ≠ .done → (s.outputs rst).hdrType = 0#4 ∧ (s.outputs rst).hdrFlags = 0#4 ∧
      (s.outputs rst).hdrRemLen = 0#32)

/-- R35: `busy`, `done` and `error` are mutually exclusive, and the block is in IDLE when all three are 0. -/
def Obligations.StatusBitsExclusive : Prop :=
  ∀ (s : State) (rst : Bool),
    ¬ ((s.outputs rst).busy = true ∧ (s.outputs rst).done = true) ∧
    ¬ ((s.outputs rst).busy = true ∧ (s.outputs rst).error = true) ∧
    ¬ ((s.outputs rst).done = true ∧ (s.outputs rst).error = true) ∧
    ((s.outputs rst).busy = false → (s.outputs rst).done = false → (s.outputs rst).error = false → s.st = .idle)

/-! ### The functional layer -/

/-- R100, R117: the resolver is total, fails exactly on 0 and 15 with the code it was given, and is one-to-one between the
codes 1 to 14 and the 14 packet types; the hardware's test `valid_type` says the same. -/
def Obligations.ResolverIsABijection : Prop :=
  (∀ c : Nibble, c = 0#4 ∨ c = 15#4 → resolvePacketType c = .err (.invalidPacketType c)) ∧
  (∀ c : Nibble, c ≠ 0#4 → c ≠ 15#4 → ∃ t, resolvePacketType c = .ok t ∧ packetCode t = c) ∧
  (∀ t : PacketType, resolvePacketType (packetCode t) = .ok t) ∧
  (∀ c : Nibble, validType c = true ↔ ∃ t, resolvePacketType c = .ok t)

/-- R133, R139: the decoder succeeds exactly on a complete field of 1 to 4 bytes at `off`, with the sum of its chunks and
the count of its bytes. -/
def Obligations.DecodedLengthIsChunkSum : Prop :=
  ∀ (inp : Frame) (off : Nat) (v : Word32) (n : Nat),
    decodeRemainingLength inp off = .ok (v, n) ↔
      (1 ≤ n ∧ n ≤ 4 ∧ ((inp.drop off).take n).length = n ∧
        completeField ((inp.drop off).take n) = true ∧
        v.toNat = chunkSum 0 ((inp.drop off).take n))

/-- R143: the bytes after the field do not matter. A success is the same on every frame with the same field at `off`, and
after four continuation bytes only the existence of a fifth byte counts. -/
def Obligations.DecoderStopsAtTheField : Prop :=
  ∀ (inp inp' : Frame) (off : Nat),
    (∀ v n, decodeRemainingLength inp off = .ok (v, n) → (inp'.drop off).take n = (inp.drop off).take n →
      decodeRemainingLength inp' off = .ok (v, n)) ∧
    (decodeRemainingLength inp off = .err .malformedVariableLength →
      (inp'.drop off).take 4 = (inp.drop off).take 4 → off + 4 < inp'.length →
      decodeRemainingLength inp' off = .err .malformedVariableLength)

/-- R140: the value of `n` bytes is below `128^n`, so at most 2^28 − 1, and bits 31:28 are 0. -/
def Obligations.DecodedLengthBound : Prop :=
  ∀ (inp : Frame) (off : Nat) (v : Word32) (n : Nat),
    decodeRemainingLength inp off = .ok (v, n) →
    v.toNat < 128 ^ n ∧ v.toNat ≤ 268435455 ∧ v.extractLsb' 28 4 = 0#4

/-- R142: decoding the minimal encoding of every value up to 2^28 − 1 gives it back with its length, whatever stands before
and after; the length is the least that holds the value, and the bytes are those of R142. -/
def Obligations.MinimalEncodingRoundTrip : Prop :=
  ∀ v : Nat, v ≤ 268435455 →
    1 ≤ (minEnc v).length ∧ v < 128 ^ (minEnc v).length ∧
    (∀ k, 1 ≤ k → v < 128 ^ k → (minEnc v).length ≤ k) ∧
    (∀ (i : Nat) (h : i < (minEnc v).length),
      (chunkOf (minEnc v)[i]).toNat = (v >>> (7 * i)) % 128 ∧
      contBit (minEnc v)[i] = decide (i + 1 < (minEnc v).length)) ∧
    (∀ inp : Frame, ∀ off : Nat, (inp.drop off).take (minEnc v).length = minEnc v →
      decodeRemainingLength inp off = .ok (BitVec.ofNat 32 v, (minEnc v).length))

/-- R137, R138: after four bytes with bit 7 = 1, the end of the frame is UnexpectedEndOfInput and a fifth byte, of any value,
is MalformedVariableLength. -/
def Obligations.FourContinuationBytes : Prop :=
  ∀ (inp : Frame) (off : Nat),
    (∀ i, i < 4 → ∃ b, memRead inp (off + i) = some b ∧ contBit b = true) →
    (inp.length = off + 4 → decodeRemainingLength inp off = .err .unexpectedEndOfInput) ∧
    (off + 4 < inp.length → decodeRemainingLength inp off = .err .malformedVariableLength)

/-- R136: a frame that ends before a terminating byte, within the four, is UnexpectedEndOfInput. -/
def Obligations.EndBeforeTerminator : Prop :=
  ∀ (inp : Frame) (off k : Nat), k ≤ 4 → avail inp (off + k) = false →
    (∀ i, i < k → ∃ b, memRead inp (off + i) = some b ∧ contBit b = true) →
    decodeRemainingLength inp off = .err .unexpectedEndOfInput

/-- R160, R161, R163, R214: the order of the parser's checks. -/
def Obligations.ParserChecksInOrder : Prop :=
  parseFixedHeader [] = .err .unexpectedEndOfInput ∧
  ∀ (b : Byte) (rest : Frame),
    ((typeCode b = 0#4 ∨ typeCode b = 15#4) →
      parseFixedHeader (b :: rest) = .err (.invalidPacketType (typeCode b))) ∧
    (typeCode b ≠ 0#4 → typeCode b ≠ 15#4 →
      (∀ e, decodeRemainingLength (b :: rest) 1 = .err e →
        parseFixedHeader (b :: rest) = .err e ∧ (e = .unexpectedEndOfInput ∨ e = .malformedVariableLength)) ∧
      (∀ v n, decodeRemainingLength (b :: rest) 1 = .ok (v, n) →
        ∃ t, packetCode t = typeCode b ∧
          parseFixedHeader (b :: rest) = .ok (⟨t, flagsOf b, v⟩, (b :: rest).drop (1 + n))))

/-- R168: a success and the errors InvalidPacketType and MalformedVariableLength stay the same whatever is appended. -/
def Obligations.ParserResultIsPrefixStable : Prop :=
  ∀ inp s : Frame,
    (∀ h r, parseFixedHeader inp = .ok (h, r) → parseFixedHeader (inp ++ s) = .ok (h, r ++ s)) ∧
    (∀ e, parseFixedHeader inp = .err e → e ≠ .unexpectedEndOfInput → parseFixedHeader (inp ++ s) = .err e)

/-- R167, R51, R170: the parser depends on the bytes at offsets 0 to 4 and on whether a sixth exists, and its remainder
starts 2 to 5 bytes into the frame. -/
def Obligations.ParserReadsAtMostFiveBytes : Prop :=
  ∀ inp inp' : Frame, inp.take 5 = inp'.take 5 → (5 < inp.length ↔ 5 < inp'.length) →
    (∀ e, parseFixedHeader inp = .err e → parseFixedHeader inp' = .err e) ∧
    (∀ h r, parseFixedHeader inp = .ok (h, r) →
      ∃ n, 2 ≤ n ∧ n ≤ 5 ∧ r = inp.drop n ∧ parseFixedHeader inp' = .ok (h, inp'.drop n))

/-- R166: the fields of every header the parser returns are in range, and the flags are the low nibble of byte 0. -/
def Obligations.HeaderFieldsInRange : Prop :=
  ∀ (inp : Frame) (h : FixedHeader) (r : Frame), parseFixedHeader inp = .ok (h, r) →
    1 ≤ (packetCode h.packetType).toNat ∧ (packetCode h.packetType).toNat ≤ 14 ∧
    h.remainingLength.toNat ≤ 268435455 ∧
    ∃ b rest, inp = b :: rest ∧ packetCode h.packetType = typeCode b ∧ h.packetFlags = flagsOf b

/-! ### The two layers agree -/

/-- R196 with R197's bounds: run on any frame, by any host that presents it as R196 says after a START from IDLE, DONE or
ERR, the block leaves HDR and LEN after at most six cycles that are no NOP, having taken at most five bytes, and ends in
DONE or ERR with exactly the result of `ParseFixedHeader`. -/
def Obligations.BlockComputesParseFixedHeader : Prop :=
  ∀ (frame : Frame) (s u t : State) (n : Nat),
    s.startTaken → step s = .next u → BusyRun frame n u t →
    n ≤ 6 ∧ t.pos.toNat ≤ 5 ∧ (n = 6 → t.busy = false) ∧
    (t.busy = false → ∀ rst,
      (t.st = .done ∨ t.st = .err) ∧
      (∀ h r, parseFixedHeader frame = .ok (h, r) ↔
        ((t.outputs rst).done = true ∧ (t.outputs rst).hdrType = packetCode h.packetType ∧
          (t.outputs rst).hdrFlags = h.packetFlags ∧ (t.outputs rst).hdrRemLen = h.remainingLength ∧
          r = frame.drop (t.outputs rst).consumed.toNat)) ∧
      (∀ v k, decodeRemainingLength frame 1 = .ok (v, k) → t.st = .done →
        (t.outputs rst).consumed.toNat = 1 + k ∧ n = 1 + k) ∧
      (∀ c, parseFixedHeader frame = .err (.invalidPacketType c) ↔
        ((t.outputs rst).error = true ∧ (t.outputs rst).errKind = 1#2 ∧ (t.outputs rst).errValue = c)) ∧
      (parseFixedHeader frame = .err .unexpectedEndOfInput ↔
        ((t.outputs rst).error = true ∧ (t.outputs rst).errKind = 2#2)) ∧
      (parseFixedHeader frame = .err .malformedVariableLength ↔
        ((t.outputs rst).error = true ∧ (t.outputs rst).errKind = 3#2)) ∧
      ((t.outputs rst).errKind = 1#2 → (t.outputs rst).consumed = 1#3) ∧
      ((t.outputs rst).errKind = 2#2 → (t.outputs rst).consumed.toNat = frame.length) ∧
      ((t.outputs rst).errKind = 3#2 → (t.outputs rst).consumed = 5#3))

/-- R252: START in one cycle and then one byte in every cycle shows `done` first in the cycle `2 + n` after the START cycle,
with `n` the number of length bytes; before that the block is busy. -/
def Obligations.HeaderTakesTwoPlusLengthCycles : Prop :=
  ∀ (frame : Frame) (h : FixedHeader) (r : Frame) (v : Word32) (n : Nat) (s : State) (rest : List Cycle),
    parseFixedHeader frame = .ok (h, r) → decodeRemainingLength frame 1 = .ok (v, n) → s.st.resting = true →
    (∀ k, 1 ≤ k → k < 2 + n →
      ∃ t, runCycles k
          { s with host := assemble (.start :: feed (frame.take (1 + n))) ++ rest } = .next t ∧
        t.busy = true ∧ t.pos.toNat = k - 1) ∧
    (∃ t, runCycles (2 + n)
          { s with host := assemble (.start :: feed (frame.take (1 + n))) ++ rest } = .next t ∧
      t.st = .done ∧ t.ptype = packetCode h.packetType ∧ t.pflags = h.packetFlags ∧
      t.acc = h.remainingLength ∧ t.pos.toNat = 1 + n ∧ t.host = rest)
end

