-- ==== Sys2Proof/Laws/Decode.lean ====
section
/-! SUPPORT. Bit fields and their composition, the decoder by cases, and the one-step facts about both tables. -/

namespace Sys2Proof

/-! ### Fields of composed words -/

@[simp] theorem typeCode_byteB0 (c f : Nibble) : typeCode (byteB0 c f) = c := by revert c f; decide

@[simp] theorem flagsOf_byteB0 (c f : Nibble) : flagsOf (byteB0 c f) = f := by revert c f; decide

@[simp] theorem contBit_byteRlb (m : Bool) (c : Chunk) : contBit (byteRlb m c) = m := by
  cases m <;> (revert c; decide)

@[simp] theorem chunkOf_byteRlb (m : Bool) (c : Chunk) : chunkOf (byteRlb m c) = c := by
  cases m <;> (revert c; decide)

theorem byteB0_typeCode_flagsOf (b : Byte) : byteB0 (typeCode b) (flagsOf b) = b := by revert b; decide

theorem byteRlb_contBit_chunkOf (b : Byte) : byteRlb (contBit b) (chunkOf b) = b := by revert b; decide

/-- A packet-type code is 0, 15 or one of 1 to 14. -/
theorem nibble_cases (c : Nibble) :
    c = 0#4 ∨ c = 1#4 ∨ c = 2#4 ∨ c = 3#4 ∨ c = 4#4 ∨ c = 5#4 ∨ c = 6#4 ∨ c = 7#4 ∨ c = 8#4 ∨ c = 9#4 ∨
      c = 10#4 ∨ c = 11#4 ∨ c = 12#4 ∨ c = 13#4 ∨ c = 14#4 ∨ c = 15#4 := by revert c; decide

theorem bit_r (r s v e : Bool) : (ctlVector r s v e).getLsbD 3 = r := by
  cases r <;> cases s <;> cases v <;> cases e <;> decide

theorem bit_s (r s v e : Bool) : (ctlVector r s v e).getLsbD 2 = s := by
  cases r <;> cases s <;> cases v <;> cases e <;> decide

theorem bit_v (r s v e : Bool) : (ctlVector r s v e).getLsbD 1 = v := by
  cases r <;> cases s <;> cases v <;> cases e <;> decide

theorem bit_e (r s v e : Bool) : (ctlVector r s v e).getLsbD 0 = e := by
  cases r <;> cases s <;> cases v <;> cases e <;> decide

theorem ctlVector_bits (v : BitVec 4) :
    ctlVector (v.getLsbD 3) (v.getLsbD 2) (v.getLsbD 1) (v.getLsbD 0) = v := by revert v; decide

/-! ### The B0 decoder by its code -/

/-- The four bits that `decodeB0` and `runByte0` match on, for a byte composed of a known code. -/
theorem byteB0_bits (c f : Nibble) :
    (byteB0 c f).getLsbD 7 = c.getLsbD 3 ∧ (byteB0 c f).getLsbD 6 = c.getLsbD 2 ∧
      (byteB0 c f).getLsbD 5 = c.getLsbD 1 ∧ (byteB0 c f).getLsbD 4 = c.getLsbD 0 := by
  revert c f; decide

/-- The row of a code, as an equation on composed bytes. -/
theorem decodeB0_byteB0 (c f : Nibble) :
    decodeB0 (byteB0 c f) =
      match c.getLsbD 3, c.getLsbD 2, c.getLsbD 1, c.getLsbD 0 with
      | false, false, false, false => .reserved0 f
      | false, false, false, true => .connect f
      | false, false, true, false => .connack f
      | false, false, true, true => .publish f
      | false, true, false, false => .puback f
      | false, true, false, true => .pubrec f
      | false, true, true, false => .pubrel f
      | false, true, true, true => .pubcomp f
      | true, false, false, false => .subscribe f
      | true, false, false, true => .suback f
      | true, false, true, false => .unsubscribe f
      | true, false, true, true => .unsuback f
      | true, true, false, false => .pingreq f
      | true, true, false, true => .pingresp f
      | true, true, true, false => .disconnect f
      | true, true, true, true => .reserved15 f := by
  obtain ⟨h7, h6, h5, h4⟩ := byteB0_bits c f
  unfold decodeB0
  rw [h7, h6, h5, h4, flagsOf_byteB0] <;> rfl

/-! ### The CTL decoder by its vector -/

/-- `decodeCtl` on a composed vector: R84's rows, with the cursor's three ranges. -/
theorem decodeCtl_ctlVector (st : CtlState) (pos : Pos) (r s v e : Bool) (d : Byte) :
    decodeCtl st pos (ctlVector r s v e) d =
      if r then .ok (.reset s v e d)
      else match st with
        | .idle | .done | .err => if s then .ok (.start v e d) else .ok (.nopIdle v e d)
        | .hdr => if v then .ok (.byteHdr s e d) else if e then .ok (.eoiHdr s d) else .ok (.nopBusy s d)
        | .len =>
          if v then
            if pos = Config.posMax then .ok (.byteOver s e d)
            else if lengthPos pos then .ok (.byteLen s e d)
            else .error .noRowForPos
          else if e then .ok (.eoiLen s d)
          else .ok (.nopBusy s d) := by
  simp only [decodeCtl, bit_r, bit_s, bit_v, bit_e] <;> rfl

/-- What `decodeCtl` decodes is encoded by the word it was decoded from. -/
theorem encode_of_decodeCtl {st : CtlState} {pos : Pos} {v : BitVec 4} {d : Byte} {i : Instr}
    (h : decodeCtl st pos v d = .ok i) : encode i = .ctl v d := by
  rw [← ctlVector_bits v] at h ⊢
  generalize v.getLsbD 3 = r at *
  generalize v.getLsbD 2 = s at *
  generalize v.getLsbD 1 = w at *
  generalize v.getLsbD 0 = e at *
  rw [decodeCtl_ctlVector] at h
  cases r
  · cases st <;> simp only [Bool.false_eq_true, if_false] at h
    all_goals
      repeat' split at h
      all_goals cases h
      all_goals simp_all [encode]
  · simp only [if_true] at h
    cases h
    rfl

/-- What `decodeCtl` decodes is carried at the state and cursor it was decoded at. -/
theorem wellFormed_of_decodeCtl {st : CtlState} {pos : Pos} {v : BitVec 4} {d : Byte} {i : Instr}
    (h : decodeCtl st pos v d = .ok i) : i.wellFormed st pos = true := by
  unfold decodeCtl at h
  cases st <;> simp only at h
  all_goals
    repeat' split at h
    all_goals cases h
    all_goals simp_all [Instr.wellFormed, CtlState.resting]

end Sys2Proof
end

