-- ==== Sys2Proof/Laws/State.lean ====
section
/-! SUPPORT. Each register after each operation: one lemma per field and update, true by definition, so that no proof
unfolds a record update. -/

namespace Sys2Proof.Machine

@[simp] theorem State.advance_st (s : State) : s.advance.st = s.st := rfl
@[simp] theorem State.advance_pos (s : State) : s.advance.pos = s.pos := rfl
@[simp] theorem State.advance_acc (s : State) : s.advance.acc = s.acc := rfl
@[simp] theorem State.advance_ptype (s : State) : s.advance.ptype = s.ptype := rfl
@[simp] theorem State.advance_pflags (s : State) : s.advance.pflags = s.pflags := rfl
@[simp] theorem State.advance_ekind (s : State) : s.advance.ekind = s.ekind := rfl
@[simp] theorem State.advance_evalue (s : State) : s.advance.evalue = s.evalue := rfl
@[simp] theorem State.advance_host (s : State) : s.advance.host = s.host.tail := rfl

@[simp] theorem State.clearRegisters_st (s : State) : s.clearRegisters.st = .idle := rfl
@[simp] theorem State.clearRegisters_pos (s : State) : s.clearRegisters.pos = 0#3 := rfl
@[simp] theorem State.clearRegisters_acc (s : State) : s.clearRegisters.acc = 0#32 := rfl
@[simp] theorem State.clearRegisters_ptype (s : State) : s.clearRegisters.ptype = 0#4 := rfl
@[simp] theorem State.clearRegisters_pflags (s : State) : s.clearRegisters.pflags = 0#4 := rfl
@[simp] theorem State.clearRegisters_ekind (s : State) : s.clearRegisters.ekind = .noError := rfl
@[simp] theorem State.clearRegisters_evalue (s : State) : s.clearRegisters.evalue = 0#4 := rfl
@[simp] theorem State.clearRegisters_host (s : State) : s.clearRegisters.host = s.host := rfl

@[simp] theorem State.beginAttempt_st (s : State) : s.beginAttempt.st = .hdr := rfl
@[simp] theorem State.beginAttempt_pos (s : State) : s.beginAttempt.pos = 0#3 := rfl
@[simp] theorem State.beginAttempt_acc (s : State) : s.beginAttempt.acc = 0#32 := rfl
@[simp] theorem State.beginAttempt_ptype (s : State) : s.beginAttempt.ptype = 0#4 := rfl
@[simp] theorem State.beginAttempt_pflags (s : State) : s.beginAttempt.pflags = 0#4 := rfl
@[simp] theorem State.beginAttempt_ekind (s : State) : s.beginAttempt.ekind = .noError := rfl
@[simp] theorem State.beginAttempt_evalue (s : State) : s.beginAttempt.evalue = 0#4 := rfl
@[simp] theorem State.beginAttempt_host (s : State) : s.beginAttempt.host = s.host := rfl

@[simp] theorem State.acceptByte0_st (s : State) (c f : Nibble) : (s.acceptByte0 c f).st = .len := rfl
@[simp] theorem State.acceptByte0_pos (s : State) (c f : Nibble) : (s.acceptByte0 c f).pos = 1#3 := rfl
@[simp] theorem State.acceptByte0_acc (s : State) (c f : Nibble) : (s.acceptByte0 c f).acc = s.acc := rfl
@[simp] theorem State.acceptByte0_ptype (s : State) (c f : Nibble) : (s.acceptByte0 c f).ptype = c := rfl
@[simp] theorem State.acceptByte0_pflags (s : State) (c f : Nibble) : (s.acceptByte0 c f).pflags = f := rfl
@[simp] theorem State.acceptByte0_ekind (s : State) (c f : Nibble) : (s.acceptByte0 c f).ekind = s.ekind := rfl
@[simp] theorem State.acceptByte0_evalue (s : State) (c f : Nibble) : (s.acceptByte0 c f).evalue = s.evalue := rfl
@[simp] theorem State.acceptByte0_host (s : State) (c f : Nibble) : (s.acceptByte0 c f).host = s.host := rfl

@[simp] theorem State.rejectByte0_st (s : State) (c : Nibble) : (s.rejectByte0 c).st = .err := rfl
@[simp] theorem State.rejectByte0_pos (s : State) (c : Nibble) : (s.rejectByte0 c).pos = 1#3 := rfl
@[simp] theorem State.rejectByte0_acc (s : State) (c : Nibble) : (s.rejectByte0 c).acc = s.acc := rfl
@[simp] theorem State.rejectByte0_ptype (s : State) (c : Nibble) : (s.rejectByte0 c).ptype = s.ptype := rfl
@[simp] theorem State.rejectByte0_pflags (s : State) (c : Nibble) : (s.rejectByte0 c).pflags = s.pflags := rfl
@[simp] theorem State.rejectByte0_ekind (s : State) (c : Nibble) : (s.rejectByte0 c).ekind = .invalidPacketType := rfl
@[simp] theorem State.rejectByte0_evalue (s : State) (c : Nibble) : (s.rejectByte0 c).evalue = c := rfl
@[simp] theorem State.rejectByte0_host (s : State) (c : Nibble) : (s.rejectByte0 c).host = s.host := rfl

@[simp] theorem State.takeLengthByte_st (s : State) (m : Bool) (c : Chunk) : (s.takeLengthByte m c).st = (if m then s.st else .done) := rfl
@[simp] theorem State.takeLengthByte_pos (s : State) (m : Bool) (c : Chunk) : (s.takeLengthByte m c).pos = s.pos + 1#3 := rfl
@[simp] theorem State.takeLengthByte_acc (s : State) (m : Bool) (c : Chunk) : (s.takeLengthByte m c).acc = s.acc ||| chunkTerm (lengthIndex s.pos) c := rfl
@[simp] theorem State.takeLengthByte_ptype (s : State) (m : Bool) (c : Chunk) : (s.takeLengthByte m c).ptype = s.ptype := rfl
@[simp] theorem State.takeLengthByte_pflags (s : State) (m : Bool) (c : Chunk) : (s.takeLengthByte m c).pflags = s.pflags := rfl
@[simp] theorem State.takeLengthByte_ekind (s : State) (m : Bool) (c : Chunk) : (s.takeLengthByte m c).ekind = s.ekind := rfl
@[simp] theorem State.takeLengthByte_evalue (s : State) (m : Bool) (c : Chunk) : (s.takeLengthByte m c).evalue = s.evalue := rfl
@[simp] theorem State.takeLengthByte_host (s : State) (m : Bool) (c : Chunk) : (s.takeLengthByte m c).host = s.host := rfl

@[simp] theorem State.raise_eoi_st (s : State) : (s.raiseError .unexpectedEndOfInput).st = .err := rfl
@[simp] theorem State.raise_eoi_pos (s : State) : (s.raiseError .unexpectedEndOfInput).pos = s.pos := rfl
@[simp] theorem State.raise_eoi_acc (s : State) : (s.raiseError .unexpectedEndOfInput).acc = s.acc := rfl
@[simp] theorem State.raise_eoi_ptype (s : State) : (s.raiseError .unexpectedEndOfInput).ptype = s.ptype := rfl
@[simp] theorem State.raise_eoi_pflags (s : State) : (s.raiseError .unexpectedEndOfInput).pflags = s.pflags := rfl
@[simp] theorem State.raise_eoi_ekind (s : State) : (s.raiseError .unexpectedEndOfInput).ekind = .unexpectedEndOfInput := rfl
@[simp] theorem State.raise_eoi_evalue (s : State) : (s.raiseError .unexpectedEndOfInput).evalue = s.evalue := rfl
@[simp] theorem State.raise_eoi_host (s : State) : (s.raiseError .unexpectedEndOfInput).host = s.host := rfl

@[simp] theorem State.raise_malformed_st (s : State) : (s.raiseError .malformedVariableLength).st = .err := rfl
@[simp] theorem State.raise_malformed_pos (s : State) : (s.raiseError .malformedVariableLength).pos = s.pos := rfl
@[simp] theorem State.raise_malformed_acc (s : State) : (s.raiseError .malformedVariableLength).acc = s.acc := rfl
@[simp] theorem State.raise_malformed_ptype (s : State) : (s.raiseError .malformedVariableLength).ptype = s.ptype := rfl
@[simp] theorem State.raise_malformed_pflags (s : State) : (s.raiseError .malformedVariableLength).pflags = s.pflags := rfl
@[simp] theorem State.raise_malformed_ekind (s : State) : (s.raiseError .malformedVariableLength).ekind = .malformedVariableLength := rfl
@[simp] theorem State.raise_malformed_evalue (s : State) : (s.raiseError .malformedVariableLength).evalue = s.evalue := rfl
@[simp] theorem State.raise_malformed_host (s : State) : (s.raiseError .malformedVariableLength).host = s.host := rfl

@[simp] theorem State.raise_invalid_st (s : State) (c : Nibble) : (s.raiseError (.invalidPacketType c)).st = .err := rfl
@[simp] theorem State.raise_invalid_pos (s : State) (c : Nibble) : (s.raiseError (.invalidPacketType c)).pos = s.pos := rfl
@[simp] theorem State.raise_invalid_acc (s : State) (c : Nibble) : (s.raiseError (.invalidPacketType c)).acc = s.acc := rfl
@[simp] theorem State.raise_invalid_ptype (s : State) (c : Nibble) : (s.raiseError (.invalidPacketType c)).ptype = s.ptype := rfl
@[simp] theorem State.raise_invalid_pflags (s : State) (c : Nibble) : (s.raiseError (.invalidPacketType c)).pflags = s.pflags := rfl
@[simp] theorem State.raise_invalid_ekind (s : State) (c : Nibble) : (s.raiseError (.invalidPacketType c)).ekind = .invalidPacketType := rfl
@[simp] theorem State.raise_invalid_evalue (s : State) (c : Nibble) : (s.raiseError (.invalidPacketType c)).evalue = c := rfl
@[simp] theorem State.raise_invalid_host (s : State) (c : Nibble) : (s.raiseError (.invalidPacketType c)).host = s.host := rfl

end Sys2Proof.Machine
end

