-- ==== Sys2Proof/Laws/Invariant.lean ====
section
/-! SUPPORT. How a state comes to meet the invariant `State.Inv`: one lemma per shape of the registers. -/

namespace Sys2Proof.Machine

/-- IDLE and HDR: everything else cleared. -/
theorem inv_of_cleared {t : State} (h : t.st = .idle ∨ t.st = .hdr) (hc : t.Cleared) : t.Inv := by
  refine ⟨fun _ => hc, fun _ => hc, ?_, ?_, ?_⟩ <;> intro h' <;> rw [h'] at h <;> simp at h

/-- LEN and DONE: a field under way or complete, and no error. -/
theorem inv_of_field {t : State} (h : t.st = .len ∨ (t.st = .done ∧ 2 ≤ t.pos.toNat)) (hf : t.InField)
    (hk : t.ekind = .noError) (hv : t.evalue = 0#4) : t.Inv := by
  refine ⟨?_, ?_, ?_, ?_, ?_⟩ <;> intro h' <;> rw [h'] at h <;> simp at h
  · exact ⟨hf, hk, hv⟩
  · exact ⟨hf, h, hk, hv⟩

/-- ERR: one of the error kinds' forms. -/
theorem inv_of_error {t : State} (h : t.st = .err) (hf : t.ErrorForm) : t.Inv := by
  refine ⟨?_, ?_, ?_, ?_, ?_⟩ <;> intro h' <;> rw [h'] at h <;> simp at h
  exact hf

/-- The invariant says nothing of the host's inputs. -/
theorem inv_of_host {s : State} (h : s.Inv) (l : List Cycle) : { s with host := l }.Inv := h

end Sys2Proof.Machine
end

