-- ==== Sys2Proof/Laws/Ops.lean ====
section
/-! SUPPORT. One lemma per shared operation and meaning, saying once everything it can do; the provers cite these and do not
unfold the machine. -/

namespace Sys2Proof.Machine

/-! ### The guard -/

@[simp] theorem whenCarried_true (t : State) : whenCarried true t = .next t := rfl

@[simp] theorem whenCarried_false (t : State) : whenCarried false t = .refused .notCarriedHere := rfl

/-- A guarded meaning answers a next state exactly where it is carried, and that state is its effect. -/
theorem whenCarried_next {p : Bool} {t u : State} : whenCarried p t = .next u ↔ p = true ∧ u = t := by
  cases p <;> simp [eq_comm]

/-! ### Where the registers stand -/

theorem busy_eq (s : State) : s.busy = (decide (s.st = .hdr) || decide (s.st = .len)) := by
  cases h : s.st <;> simp [State.busy, CtlState.resting, h]

theorem resting_iff (st : CtlState) : st.resting = true ↔ st = .idle ∨ st = .done ∨ st = .err := by
  cases st <;> simp [CtlState.resting]

theorem inLengthField_iff (s : State) :
    s.inLengthField = true ↔ s.st = .len ∧ 1 ≤ s.pos.toNat ∧ s.pos.toNat ≤ 4 := by
  simp [State.inLengthField, lengthPos]

theorem pastLengthField_iff (s : State) : s.pastLengthField = true ↔ s.st = .len ∧ s.pos = 5#3 := by
  simp only [State.pastLengthField, Bool.and_eq_true, decide_eq_true_eq]

theorem validType_iff (c : Nibble) : validType c = true ↔ c ≠ 0#4 ∧ c ≠ 15#4 := by revert c; decide

theorem validType_range (c : Nibble) : validType c = true ↔ 1 ≤ c.toNat ∧ c.toNat ≤ 14 := by revert c; decide

/-- A 3-bit cursor is one of eight values. -/
theorem pos_cases (p : Pos) : p = 0#3 ∨ p = 1#3 ∨ p = 2#3 ∨ p = 3#3 ∨ p = 4#3 ∨ p = 5#3 ∨ p = 6#3 ∨ p = 7#3 := by
  revert p; decide

/-! ### The byte rows -/

/-- Byte 0 runs R185 or R186 by its code (spec/43_control.md R184). -/
theorem runByte0_eq (b : Byte) (s : State) :
    runByte0 b s = whenCarried (decide (s.st = .hdr))
      (if validType (typeCode b) then s.acceptByte0 (typeCode b) (flagsOf b) else s.rejectByte0 (typeCode b)) := by
  obtain ⟨h7, h6, h5, h4⟩ := byteB0_bits (typeCode b) (flagsOf b)
  rw [byteB0_typeCode_flagsOf] at h7 h6 h5 h4
  unfold runByte0
  rw [h7, h6, h5, h4]
  generalize typeCode b = c
  rcases nibble_cases c with h | h | h | h | h | h | h | h | h | h | h | h | h | h | h | h <;> subst h <;> rfl

/-- A length byte runs R188 with its continuation bit (R189). -/
theorem runLengthByte_eq (b : Byte) (s : State) :
    runLengthByte b s = whenCarried s.inLengthField (s.takeLengthByte (contBit b) (chunkOf b)) := by
  unfold runLengthByte
  cases contBit b <;> rfl

/-- Every meaning is its effect, guarded by its row's place. -/
theorem exec_carried (i : Instr) (s : State) : ∃ t, exec i s = whenCarried (i.wellFormed s.st s.pos) t := by
  cases i
  case byteHdr => exact ⟨_, runByte0_eq _ _⟩
  case byteLen => exact ⟨_, runLengthByte_eq _ _⟩
  all_goals exact ⟨_, rfl⟩

/-- What a meaning changes of the host's inputs: nothing. -/
theorem exec_host {i : Instr} {s t : State} (h : exec i s = .next t) : t.host = s.host := by
  cases i
  case reset => cases h; rfl
  case byteHdr =>
    simp only [exec, execByteHdr, runByte0_eq, whenCarried_next] at h
    rw [h.2]; split <;> rfl
  case byteLen =>
    simp only [exec, execByteLen, runLengthByte_eq, whenCarried_next] at h
    rw [h.2]; rfl
  all_goals
    obtain ⟨-, rfl⟩ := whenCarried_next.mp h
    rfl

/-! ### The step -/

/-- The current inputs of a state whose host has placed some. -/
@[simp] theorem inputs_cons (s : State) (c : Cycle) (rest : List Cycle) : { s with host := c :: rest }.inputs = c := rfl

theorem inputs_of_host {s : State} {c : Cycle} {rest : List Cycle} (h : s.host = c :: rest) : s.inputs = c := by
  simp [State.inputs, h]

/-- R84's choice and the chosen rule's writes, on the cycle's inputs `c` and the registers `r`. -/
def stepOn (c : Cycle) (r : State) : Effect :=
  if c.rst then .next r.clearRegisters
  else match r.st with
    | .idle | .done | .err => .next (if c.start then r.beginAttempt else r)
    | .hdr =>
      .next (if c.inValid then
          (if validType (typeCode c.inData) then r.acceptByte0 (typeCode c.inData) (flagsOf c.inData)
            else r.rejectByte0 (typeCode c.inData))
        else if c.inEoi then r.raiseError .unexpectedEndOfInput
        else r)
    | .len =>
      if c.inValid then
        if r.pos = 5#3 then .next (r.raiseError .malformedVariableLength)
        else if lengthPos r.pos then .next (r.takeLengthByte (contBit c.inData) (chunkOf c.inData))
        else .fault .noRuleForPos
      else .next (if c.inEoi then r.raiseError .unexpectedEndOfInput else r)

/-- A state's registers, with the current inputs gone by, do not depend on what those inputs were. -/
theorem advance_cons (s : State) (c : Cycle) (rest : List Cycle) :
    { s with host := c :: rest }.advance = { s with host := rest } := rfl

theorem advance_of_host {s : State} {c : Cycle} {rest : List Cycle} (h : s.host = c :: rest) :
    s.advance = { s with host := rest } := by
  simp [State.advance, h]

/-- The whole step, as a function of the current inputs and the registers. -/
theorem step_eq (s : State) : step s = stepOn s.inputs s.advance := by
  unfold stepOn
  simp only [State.advance_st, State.advance_pos]
  unfold step
  rw [Cycle.vector, decodeCtl_ctlVector]
  generalize s.inputs = c
  obtain ⟨r, st, v, e, d⟩ := c
  cases r
  case true => rfl
  cases h : s.st <;> simp only [Bool.false_eq_true, if_false]
  case idle => cases st <;> simp [exec, execStart, execNopIdle, h, CtlState.resting]
  case done => cases st <;> simp [exec, execStart, execNopIdle, h, CtlState.resting]
  case err => cases st <;> simp [exec, execStart, execNopIdle, h, CtlState.resting]
  case hdr =>
    cases v
    · cases e <;> simp [exec, execEoiHdr, execNopBusy, h, State.busy, CtlState.resting]
    · simp [exec, execByteHdr, runByte0_eq, h]
  case len =>
    cases v
    · cases e <;> simp [exec, execEoiLen, execNopBusy, h, State.busy, CtlState.resting]
    · by_cases h5 : s.pos = 5#3
      · simp [exec, execByteOver, execRlOver, State.pastLengthField, h, h5, Config.posMax]
      · by_cases hl : lengthPos s.pos = true
        · simp [exec, execByteLen, runLengthByte_eq, State.inLengthField, h, h5, hl, Config.posMax]
        · simp [h5, hl, Config.posMax]

/-- What one cycle can do, by the rule that does it (spec/43_control.md R181, 70_reset_and_hazards.md R240). -/
inductive StepCase (s : State) : State → Prop
  /-- R240 -/
  | reset : s.inputs.rst = true → StepCase s s.advance.clearRegisters
  /-- R182 -/
  | start : s.inputs.rst = false → s.inputs.start = true → s.st.resting = true → StepCase s s.advance.beginAttempt
  /-- R194 -/
  | rest : s.inputs.rst = false → s.inputs.start = false → s.st.resting = true → StepCase s s.advance
  /-- R184, R185 -/
  | accept : s.inputs.rst = false → s.st = .hdr → s.inputs.inValid = true →
      validType (typeCode s.inputs.inData) = true →
      StepCase s (s.advance.acceptByte0 (typeCode s.inputs.inData) (flagsOf s.inputs.inData))
  /-- R184, R186 -/
  | reject : s.inputs.rst = false → s.st = .hdr → s.inputs.inValid = true →
      (typeCode s.inputs.inData = 0#4 ∨ typeCode s.inputs.inData = 15#4) →
      StepCase s (s.advance.rejectByte0 (typeCode s.inputs.inData))
  /-- R188, R189 -/
  | take : s.inputs.rst = false → s.st = .len → s.inputs.inValid = true → 1 ≤ s.pos.toNat → s.pos.toNat ≤ 4 →
      StepCase s (s.advance.takeLengthByte (contBit s.inputs.inData) (chunkOf s.inputs.inData))
  /-- R190 -/
  | fifth : s.inputs.rst = false → s.st = .len → s.inputs.inValid = true → s.pos = 5#3 →
      StepCase s (s.advance.raiseError .malformedVariableLength)
  /-- R187, R191 -/
  | ended : s.inputs.rst = false → s.st = .hdr ∨ s.st = .len → s.inputs.inValid = false → s.inputs.inEoi = true →
      StepCase s (s.advance.raiseError .unexpectedEndOfInput)
  /-- R192 -/
  | wait : s.inputs.rst = false → s.st = .hdr ∨ s.st = .len → s.inputs.inValid = false → s.inputs.inEoi = false →
      StepCase s s.advance

/-- A step that answers a next state is one of the cases. -/
theorem step_cases {s t : State} (h : step s = .next t) : StepCase s t := by
  rw [step_eq] at h
  unfold stepOn at h
  cases hr : s.inputs.rst
  case true => simp only [hr, if_true] at h; cases h; exact .reset hr
  simp only [hr, Bool.false_eq_true, if_false] at h
  have resting {b : Bool} (hb : s.inputs.start = b) (hst : s.st.resting = true)
      (h : Host.Outcome.next (φ := Fault) (ρ := Refusal) (if s.inputs.start then s.advance.beginAttempt else s.advance)
        = .next t) : StepCase s t := by
    cases b <;> simp only [hb, Bool.false_eq_true, if_false, if_true] at h <;> cases h
    · exact .rest hr hb hst
    · exact .start hr hb hst
  cases hst : s.st <;> simp only [State.advance_st, hst] at h
  case idle => exact resting rfl (by rw [hst]; rfl) h
  case done => exact resting rfl (by rw [hst]; rfl) h
  case err => exact resting rfl (by rw [hst]; rfl) h
  case hdr =>
    cases hv : s.inputs.inValid <;> simp only [hv, Bool.false_eq_true, if_false, if_true] at h
    · cases he : s.inputs.inEoi <;> simp only [he, Bool.false_eq_true, if_false, if_true] at h <;> cases h
      · exact .wait hr (.inl hst) hv he
      · exact .ended hr (.inl hst) hv he
    · by_cases hc : validType (typeCode s.inputs.inData) = true
      · rw [if_pos hc] at h; cases h; exact .accept hr hst hv hc
      · rw [if_neg hc] at h; cases h
        rw [validType_iff] at hc
        exact .reject hr hst hv (by tauto)
  case len =>
    cases hv : s.inputs.inValid <;> simp only [hv, Bool.false_eq_true, if_false, if_true] at h
    · cases he : s.inputs.inEoi <;> simp only [he, Bool.false_eq_true, if_false, if_true] at h <;> cases h
      · exact .wait hr (.inr hst) hv he
      · exact .ended hr (.inr hst) hv he
    · split at h
      · rename_i h5; cases h; exact .fifth hr hst hv h5
      · split at h
        · rename_i hl
          cases h
          have hl : lengthPos s.pos = true := hl
          simp only [lengthPos, Bool.and_eq_true, decide_eq_true_eq] at hl
          exact .take hr hst hv hl.1 hl.2
        · cases h

end Sys2Proof.Machine
end

