-- ==== Sys2Proof/Laws/Parser.lean ====
section
/-! SUPPORT. What the functions of the functional layer do, once each: the frame's primitives, one chunk's addition, the
resolver, and the loop of the length decoder from any iteration on. -/

namespace Sys2Proof.Machine

/-! ### The frame -/

/-- A byte that exists is the head of the suffix from its offset. -/
theorem memRead_drop {inp : Frame} {k : Nat} {b : Byte} (h : memRead inp k = some b) :
    inp.drop k = b :: inp.drop (k + 1) := by
  obtain ⟨hk, hb⟩ := List.getElem?_eq_some_iff.mp h
  rw [List.drop_eq_getElem_cons hk, hb]

theorem memRead_none {inp : Frame} {k : Nat} : memRead inp k = none ↔ inp.drop k = [] := by
  simp [memRead]

theorem memRead_eq_none_iff_avail {inp : Frame} {k : Nat} : memRead inp k = none ↔ avail inp k = false := by
  simp [memRead, avail]

/-! ### One chunk (spec/41_remaining_length.md R133) -/

/-- A chunk at index `i` above a value below `128^i`: its OR is its sum, exactly, and stays below `128^(i+1)`. -/
theorem chunkTerm_or (a : Word32) (c : Chunk) (i : Nat) (hi : i < 4) (ha : a.toNat < 128 ^ i) :
    (a ||| chunkTerm i c).toNat = a.toNat + c.toNat * 128 ^ i ∧ (a ||| chunkTerm i c).toNat < 128 ^ (i + 1)
    ∧ a + chunkTerm i c = a ||| chunkTerm i c := by
  have hc : c.toNat < 128 := c.isLt
  have hp : (128:Nat) ^ i = 2 ^ (7 * i) := by rw [Nat.pow_mul]
  have ht : (chunkTerm i c).toNat = c.toNat * 2 ^ (7 * i) := by
    simp only [chunkTerm, zext32, BitVec.toNat_shiftLeft, BitVec.toNat_setWidth, Nat.shiftLeft_eq]
    rw [Nat.mod_eq_of_lt (a := c.toNat) (by omega)]
    apply Nat.mod_eq_of_lt
    have : i = 0 ∨ i = 1 ∨ i = 2 ∨ i = 3 := by omega
    rcases this with rfl | rfl | rfl | rfl <;> simp [Config.rlChunkBits] <;> omega
  rw [hp] at ha
  have key : (a ||| chunkTerm i c).toNat = a.toNat + c.toNat * 2 ^ (7 * i) := by
    rw [BitVec.toNat_or, ht, Nat.or_comm, Nat.mul_comm, ← Nat.two_pow_add_eq_or_of_lt ha]
    omega
  have hlt : a.toNat + c.toNat * 2 ^ (7 * i) < 128 ^ (i + 1) := by
    have : (128:Nat) ^ (i+1) = 128 * 2 ^ (7 * i) := by rw [pow_succ, hp]; omega
    rw [this]
    have : (c.toNat + 1) * 2 ^ (7 * i) ≤ 128 * 2 ^ (7 * i) := Nat.mul_le_mul_right _ (by omega)
    have h2 : (c.toNat + 1) * 2 ^ (7 * i) = c.toNat * 2 ^ (7 * i) + 2 ^ (7 * i) := by ring
    omega
  refine ⟨by rw [key, hp], by rw [key]; exact hlt, ?_⟩
  apply BitVec.eq_of_toNat_eq
  rw [key, BitVec.toNat_add, ht]
  apply Nat.mod_eq_of_lt
  have : (128:Nat) ^ (i+1) ≤ 128 ^ 4 := Nat.pow_le_pow_right (by omega) (by omega)
  omega

/-- A value below 2^28 has bits 31:28 at 0. -/
theorem topBits_zero (a : Word32) (h : a.toNat < 268435456) : a.extractLsb' 28 4 = 0#4 := by
  apply BitVec.eq_of_toNat_eq
  simp only [BitVec.extractLsb'_toNat, BitVec.toNat_ofNat, Nat.shiftRight_eq_div_pow]
  omega

/-! ### The resolver -/

/-- A resolved code is valid and is its packet type's wire code. -/
theorem resolvePacketType_ok {c : Nibble} {t} (h : resolvePacketType c = .ok t) : packetCode t = c ∧ validType c = true := by
  rcases nibble_cases c with hc | hc | hc | hc | hc | hc | hc | hc | hc | hc | hc | hc | hc | hc | hc | hc <;> subst hc <;>
    cases h <;> exact ⟨rfl, rfl⟩

/-! ### Fields of length bytes -/

theorem completeField_cons_cons (b c : Byte) (bs : List Byte) :
    completeField (b :: c :: bs) = (contBit b && completeField (c :: bs)) := rfl

/-- The sum of the chunks of `bs` from index `i` stays below `128^(i + length)`, with `128^i` to spare. -/
theorem chunkSum_lt (bs : List Byte) : ∀ i, chunkSum i bs < 128 ^ (i + bs.length) ∧ chunkSum i bs + 128 ^ i ≤ 128 ^ (i + bs.length) := by
  induction bs with
  | nil => intro i; simp [chunkSum]
  | cons b bs ih =>
    intro i
    have := (ih (i + 1)).2
    have hb : (chunkOf b).toNat < 128 := (chunkOf b).isLt
    simp only [chunkSum, List.length_cons]
    have e : i + 1 + bs.length = i + (bs.length + 1) := by omega
    rw [e] at this
    have h2 : (chunkOf b).toNat * 128 ^ i + 128 ^ i ≤ 128 ^ (i+1) := by
      rw [pow_succ]
      have : ((chunkOf b).toNat + 1) * 128 ^ i ≤ 128 * 128 ^ i := Nat.mul_le_mul_right _ (by omega)
      linarith
    have h3 : 0 < 128 ^ i := by positivity
    omega

/-! ### The decoder's loop, from any iteration (spec/41_remaining_length.md R131) -/

/-- It succeeds exactly on a complete field of at most the bytes left, with the running value and the field's sum. -/
theorem lengthLoop_ok (inp : Frame) (off : Nat) : ∀ (left i : Nat) (v w : Word32) (n : Nat), left + i = 4 →
    v.toNat < 128 ^ i →
    (lengthLoop inp off left i v = .ok (w, n) ↔
      ∃ m, n = i + m ∧ 1 ≤ m ∧ m ≤ left ∧ ((inp.drop (off + i)).take m).length = m ∧
        completeField ((inp.drop (off + i)).take m) = true ∧
        w.toNat = v.toNat + chunkSum i ((inp.drop (off + i)).take m) ∧ w.toNat < 128 ^ n) := by
  intro left
  induction left with
  | zero =>
    intro i v w n _ _
    simp only [lengthLoop]
    constructor
    · intro h; split at h <;> cases h
    · rintro ⟨m, _, h1, h2, _⟩; omega
  | succ left ih =>
    intro i v w n hi hv
    simp only [lengthLoop]
    cases hm : memRead inp (off + i) with
    | none =>
      rw [memRead_none] at hm
      simp only [hm, List.take_nil, List.length_nil]
      constructor
      · intro h; cases h
      · rintro ⟨m, _, h1, _, h3, _⟩; omega
    | some b =>
      have hd := memRead_drop hm
      obtain ⟨k1, k2, k3⟩ := chunkTerm_or v (chunkOf b) i (by omega) hv
      rw [← k3] at k1 k2
      by_cases hc : contBit b = true
      · simp only [hc, if_true]
        rw [ih (i + 1) _ w n (by omega) k2]
        rw [hd]
        constructor
        · rintro ⟨m, e1, e2, e3, e4, e5, e6, e7⟩
          refine ⟨m + 1, by omega, by omega, by omega, ?_, ?_, ?_, e7⟩
          · rw [List.take_succ_cons, List.length_cons]; rw [← Nat.add_assoc] at e4; omega
          · rw [List.take_succ_cons]
            rw [← Nat.add_assoc] at e4 e5
            cases hx : (inp.drop (off + i + 1)).take m with
            | nil => rw [hx] at e4; simp at e4; omega
            | cons c cs => rw [hx] at e5; rw [completeField_cons_cons, hc, e5]; rfl
          · rw [List.take_succ_cons, chunkSum, e6, k1]; rw [← Nat.add_assoc]; omega
        · rintro ⟨m, e1, e2, e3, e4, e5, e6, e7⟩
          obtain ⟨m, rfl⟩ : ∃ k, m = k + 1 := ⟨m - 1, by omega⟩
          rw [List.take_succ_cons] at e4 e5 e6
          rw [List.length_cons] at e4
          cases hx : (inp.drop (off + i + 1)).take m with
          | nil => rw [hx] at e5; simp [completeField, hc] at e5
          | cons c cs =>
            rw [hx] at e4 e5 e6
            have : m ≠ 0 := by rintro rfl; simp at hx
            refine ⟨m, by omega, by omega, by omega, ?_, ?_, ?_, e7⟩
            · rw [← Nat.add_assoc, hx]; omega
            · rw [← Nat.add_assoc, hx]; rw [completeField_cons_cons] at e5; simp_all
            · rw [← Nat.add_assoc, hx, k1, e6, chunkSum]; omega
      · simp only [hc]
        rw [hd]
        constructor
        · intro h
          simp only [Bool.false_eq_true, if_false] at h
          cases h
          refine ⟨1, rfl, by omega, by omega, ?_, ?_, ?_, k2⟩
          · simp
          · simp [completeField, hc]
          · simp [chunkSum, k1]
        · rintro ⟨m, e1, e2, e3, e4, e5, e6, e7⟩
          obtain ⟨m, rfl⟩ : ∃ k, m = k + 1 := ⟨m - 1, by omega⟩
          rw [List.take_succ_cons] at e4 e5 e6
          cases hx : (inp.drop (off + i + 1)).take m with
          | cons c cs => rw [hx] at e5; rw [completeField_cons_cons] at e5; simp [hc] at e5
          | nil =>
            rw [hx] at e4 e6
            simp [chunkSum] at e4 e6
            subst e4
            subst e1
            simp
            apply BitVec.eq_of_toNat_eq
            rw [e6, k1]

/-- It meets the end of input where the frame stops after continuation bytes only. -/
theorem lengthLoop_end (inp : Frame) (off : Nat) : ∀ (left i k : Nat) (v : Word32), i ≤ k → k ≤ i + left →
    avail inp (off + k) = false → (∀ j, i ≤ j → j < k → ∃ b, memRead inp (off + j) = some b ∧ contBit b = true) →
    lengthLoop inp off left i v = .err .unexpectedEndOfInput := by
  intro left
  induction left with
  | zero =>
    intro i k v h1 h2 h3 _
    have : i = k := by omega
    subst this
    simp [lengthLoop, h3]
  | succ left ih =>
    intro i k v h1 h2 h3 h4
    simp only [lengthLoop]
    by_cases h : i = k
    · subst h
      have : memRead inp (off + i) = none := by simpa [memRead, avail] using h3
      rw [this]
    · obtain ⟨b, hb, hc⟩ := h4 i (by omega) (by omega)
      rw [hb]
      simp only [hc, if_true]
      exact ih (i + 1) k _ (by omega) (by omega) h3 (fun j hj => h4 j (by omega))

/-- It is malformed exactly where all the bytes left are continuation bytes and one more exists. -/
theorem lengthLoop_malformed (inp : Frame) (off : Nat) : ∀ (left i : Nat) (v : Word32),
    lengthLoop inp off left i v = .err .malformedVariableLength ↔
      avail inp (off + i + left) = true ∧
        ∀ j, j < left → ∃ b, memRead inp (off + i + j) = some b ∧ contBit b = true := by
  intro left
  induction left with
  | zero => intro i v; simp [lengthLoop]
  | succ left ih =>
    intro i v
    simp only [lengthLoop]
    cases hm : memRead inp (off + i) with
    | none =>
      refine ⟨fun h => (by cases h), fun ⟨_, h⟩ => ?_⟩
      obtain ⟨b, hb, -⟩ := h 0 (by omega)
      rw [Nat.add_zero, hm] at hb
      cases hb
    | some b =>
      by_cases hc : contBit b = true
      · simp only [hc, if_true]
        rw [ih (i + 1), show off + (i + 1) + left = off + i + (left + 1) by omega]
        refine and_congr_right fun _ => ⟨fun h j hj => ?_, fun h j hj => ?_⟩
        · cases j with
          | zero => exact ⟨b, hm, hc⟩
          | succ j => rw [show off + i + (j + 1) = off + (i + 1) + j by omega]; exact h j (by omega)
        · rw [show off + (i + 1) + j = off + i + (j + 1) by omega]; exact h (j + 1) (by omega)
      · simp only [hc]
        refine ⟨fun h => (by cases h), fun ⟨_, h⟩ => ?_⟩
        obtain ⟨b', hb, hc'⟩ := h 0 (by omega)
        rw [Nat.add_zero, hm] at hb
        cases hb
        exact absurd hc' hc

/-- Its errors are these two. -/
theorem lengthLoop_errors (inp : Frame) (off : Nat) : ∀ (left i : Nat) (v : Word32) (e : ParseError),
    lengthLoop inp off left i v = .err e → e = .unexpectedEndOfInput ∨ e = .malformedVariableLength := by
  intro left
  induction left with
  | zero => intro i v e h; simp only [lengthLoop] at h; split at h <;> cases h <;> simp
  | succ left ih =>
    intro i v e h
    simp only [lengthLoop] at h
    split at h
    · cases h; simp
    · split at h
      · exact ih _ _ _ h
      · cases h

end Sys2Proof.Machine
end

