-- ==== Sys2Proof/Laws/PerInstr.lean ====
section
/-! SUPPORT. One lemma per constructor of Instr: its encoding has the fixed bits that its row's mask and match give in
spec/opcode_table.json. -/

namespace Sys2Proof.Laws.EncodeFixedBits

/-- The encoding's bits under the row's mask are the row's match. -/
def Statement (i : Instr) : Prop := (encode i).tableBits &&& i.fixedBits.1 = i.fixedBits.2

theorem reserved0 : ∀ f, Statement (.reserved0 f) := by unfold Statement; decide
theorem connect : ∀ f, Statement (.connect f) := by unfold Statement; decide
theorem connack : ∀ f, Statement (.connack f) := by unfold Statement; decide
theorem publish : ∀ f, Statement (.publish f) := by unfold Statement; decide
theorem puback : ∀ f, Statement (.puback f) := by unfold Statement; decide
theorem pubrec : ∀ f, Statement (.pubrec f) := by unfold Statement; decide
theorem pubrel : ∀ f, Statement (.pubrel f) := by unfold Statement; decide
theorem pubcomp : ∀ f, Statement (.pubcomp f) := by unfold Statement; decide
theorem subscribe : ∀ f, Statement (.subscribe f) := by unfold Statement; decide
theorem suback : ∀ f, Statement (.suback f) := by unfold Statement; decide
theorem unsubscribe : ∀ f, Statement (.unsubscribe f) := by unfold Statement; decide
theorem unsuback : ∀ f, Statement (.unsuback f) := by unfold Statement; decide
theorem pingreq : ∀ f, Statement (.pingreq f) := by unfold Statement; decide
theorem pingresp : ∀ f, Statement (.pingresp f) := by unfold Statement; decide
theorem disconnect : ∀ f, Statement (.disconnect f) := by unfold Statement; decide
theorem reserved15 : ∀ f, Statement (.reserved15 f) := by unfold Statement; decide
theorem rlCont : ∀ c, Statement (.rlCont c) := by unfold Statement; decide
theorem rlLast : ∀ c, Statement (.rlLast c) := by unfold Statement; decide
theorem rlOver (b : Byte) : Statement (.rlOver b) := BitVec.and_zero
theorem reset (s v e : Bool) (d : Byte) : Statement (.reset s v e d) := by
  simp only [Statement, encode, Encoded.tableBits, Instr.fixedBits]
  revert s v e
  decide
theorem start (v e : Bool) (d : Byte) : Statement (.start v e d) := by
  simp only [Statement, encode, Encoded.tableBits, Instr.fixedBits]
  revert v e
  decide
theorem nopIdle (v e : Bool) (d : Byte) : Statement (.nopIdle v e d) := by
  simp only [Statement, encode, Encoded.tableBits, Instr.fixedBits]
  revert v e
  decide
theorem byteHdr (s e : Bool) (d : Byte) : Statement (.byteHdr s e d) := by
  simp only [Statement, encode, Encoded.tableBits, Instr.fixedBits]
  revert s e
  decide
theorem byteLen (s e : Bool) (d : Byte) : Statement (.byteLen s e d) := by
  simp only [Statement, encode, Encoded.tableBits, Instr.fixedBits]
  revert s e
  decide
theorem byteOver (s e : Bool) (d : Byte) : Statement (.byteOver s e d) := by
  simp only [Statement, encode, Encoded.tableBits, Instr.fixedBits]
  revert s e
  decide
theorem eoiHdr (s : Bool) (d : Byte) : Statement (.eoiHdr s d) := by
  simp only [Statement, encode, Encoded.tableBits, Instr.fixedBits]
  revert s
  decide
theorem eoiLen (s : Bool) (d : Byte) : Statement (.eoiLen s d) := by
  simp only [Statement, encode, Encoded.tableBits, Instr.fixedBits]
  revert s
  decide
theorem nopBusy (s : Bool) (d : Byte) : Statement (.nopBusy s d) := by
  simp only [Statement, encode, Encoded.tableBits, Instr.fixedBits]
  revert s
  decide

end Sys2Proof.Laws.EncodeFixedBits
end

