-- ==== Sys2Proof/Tests/Slice0.lean ====
section
/-! SUPPORT. The model's own tests. Every expected value is the spec's: the words of spec/30_encoding.md, the vectors of
spec/95_test_vectors.md (rows PT, RL, FH, CT; the source's scenarios) or the examples of a rule. After them, one witness for
every statement that has premises. -/

namespace Sys2Proof.Tests

open Sys2Proof Sys2Proof.Machine

/-- The next state of an outcome, where there is one. -/
def after : Effect → Option State
  | .next t => some t
  | _ => none

/-- The reason of a refusal, where there is one. -/
def refusal : Effect → Option Refusal
  | .refused r => some r
  | _ => none

/-- A decoder's answer, where it accepts. -/
def accepted (r : Except DecodeError Instr) : Option Instr := r.toOption

/-- The reason of a rejection, where there is one. -/
def rejected : Except DecodeError Instr → Option DecodeError
  | .ok _ => none
  | .error e => some e

/-- The cycle with vector `{R,S,V,E}` and `in_data`. -/
def cyc (v : BitVec 4) (d : Byte) : Cycle := (Encoded.ctl v d).cycle

/-- HDR, as START leaves it, with one cycle of inputs. -/
def hdr (c : Cycle) : State := ⟨.hdr, 0#3, 0#32, 0#4, 0#4, .noError, 0#4, [c]⟩

/-- LEN, with a PUBLISH byte 0 taken, and one cycle of inputs. -/
def len (pos : Pos) (acc : Word32) (c : Cycle) : State := ⟨.len, pos, acc, 3#4, 0#4, .noError, 0#4, [c]⟩

/-- DONE, with a CONNECT header of length 321, and one cycle of inputs. -/
def done (c : Cycle) : State := ⟨.done, 3#3, 321#32, 1#4, 0#4, .noError, 0#4, [c]⟩

/-- ERR, by InvalidPacketType(15), and one cycle of inputs. -/
def err (c : Cycle) : State := ⟨.err, 1#3, 0#32, 0#4, 0#4, .invalidPacketType, 15#4, [c]⟩

/-! ### Decoding, from the words of R76, R77 and R84 -/

theorem test_decode_b0_codes_0_to_7 :
    ∀ pos, [0b00000011#8, 0b00011000#8, 0b00101101#8, 0b00110010#8, 0b01000111#8, 0b01011100#8, 0b01100001#8,
        0b01110110#8].map (fun b => accepted (decode .hdr pos (.b0 b)))
      = [some (.reserved0 0x3#4), some (.connect 0x8#4), some (.connack 0xD#4), some (.publish 0x2#4),
        some (.puback 0x7#4), some (.pubrec 0xC#4), some (.pubrel 0x1#4), some (.pubcomp 0x6#4)] := by decide

theorem test_decode_b0_codes_8_to_15 :
    ∀ pos, [0b10001011#8, 0b10010000#8, 0b10100101#8, 0b10111010#8, 0b11001111#8, 0b11010100#8, 0b11101001#8,
        0b11111110#8].map (fun b => accepted (decode .hdr pos (.b0 b)))
      = [some (.subscribe 0xB#4), some (.suback 0x0#4), some (.unsubscribe 0x5#4), some (.unsuback 0xA#4),
        some (.pingreq 0xF#4), some (.pingresp 0x4#4), some (.disconnect 0x9#4), some (.reserved15 0xE#4)] := by
  decide

theorem test_decode_rlb :
    accepted (decode .len 1#3 (.rlb 0b11000001#8)) = some (.rlCont 65#7) ∧
    accepted (decode .len 2#3 (.rlb 0b00000010#8)) = some (.rlLast 2#7) ∧
    accepted (decode .len 4#3 (.rlb 0b10000000#8)) = some (.rlCont 0#7) ∧
    accepted (decode .len 5#3 (.rlb 0b01111111#8)) = some (.rlOver 0x7F#8) := by decide

theorem test_decode_ctl_reset_start_nop :
    accepted (decode .len 3#3 (.ctl 0b1010#4 0x00#8)) = some (.reset false true false 0x00#8) ∧
    accepted (decode .err 1#3 (.ctl 0b1111#4 0xFF#8)) = some (.reset true true true 0xFF#8) ∧
    accepted (decode .done 3#3 (.ctl 0b0110#4 0x20#8)) = some (.start true false 0x20#8) ∧
    accepted (decode .idle 0#3 (.ctl 0b0101#4 0x00#8)) = some (.start false true 0x00#8) ∧
    accepted (decode .err 1#3 (.ctl 0b0001#4 0x00#8)) = some (.nopIdle false true 0x00#8) := by decide

theorem test_decode_ctl_byte_eoi_stall :
    accepted (decode .hdr 0#3 (.ctl 0b0111#4 0x20#8)) = some (.byteHdr true true 0x20#8) ∧
    accepted (decode .len 4#3 (.ctl 0b0010#4 0x7F#8)) = some (.byteLen false false 0x7F#8) ∧
    accepted (decode .len 5#3 (.ctl 0b0011#4 0xFF#8)) = some (.byteOver false true 0xFF#8) ∧
    accepted (decode .hdr 0#3 (.ctl 0b0001#4 0x00#8)) = some (.eoiHdr false 0x00#8) ∧
    accepted (decode .len 5#3 (.ctl 0b0101#4 0x00#8)) = some (.eoiLen true 0x00#8) ∧
    accepted (decode .len 3#3 (.ctl 0b0100#4 0x00#8)) = some (.nopBusy true 0x00#8) := by decide

/-- The decoder rejects by name what no row covers. -/
theorem test_decode_rejects :
    rejected (decode .len 1#3 (.b0 0x10#8)) = some .noByteZeroHere ∧
    rejected (decode .hdr 0#3 (.rlb 0x10#8)) = some .noLengthByteHere ∧
    rejected (decode .len 0#3 (.rlb 0x10#8)) = some .noLengthByteHere ∧
    rejected (decode .len 6#3 (.rlb 0x10#8)) = some .noLengthByteHere ∧
    rejected (decode .len 0#3 (.ctl 0b0010#4 0x10#8)) = some .noRowForPos ∧
    rejected (decode .len 7#3 (.ctl 0b0010#4 0x10#8)) = some .noRowForPos := by decide

/-- A bare table word: the 4-bit CTL vectors, a byte 0, and words that are too long. -/
theorem test_decodeTableWord :
    decodeTableWord 8 0x3C = some (.publish 0xC#4) ∧ decodeTableWord 8 0xF0 = some (.reserved15 0#4) ∧
    decodeTableWord 8 0 = some (.reserved0 0#4) ∧
    decodeTableWord 4 0b1000 = some (.reset false false false 0x00#8) ∧
    decodeTableWord 4 0b0100 = some (.start false false 0x00#8) ∧
    decodeTableWord 4 0 = some (.nopIdle false false 0x00#8) ∧
    decodeTableWord 8 0b0010 = some (.byteHdr false false 0x00#8) ∧
    decodeTableWord 8 0b0001 = some (.eoiHdr false 0x00#8) ∧
    decodeTableWord 4 16 = none ∧ decodeTableWord 8 256 = none := by decide

/-- From reset, a placed byte 0 is the very next instruction (R184, R185). -/
theorem test_withFetchWord :
    after (step (State.reset.withFetchWord 8 0x3C)) = some ⟨.len, 1#3, 0#32, 3#4, 12#4, .noError, 0#4, []⟩ ∧
    after (step (State.reset.withFetchWord 4 0b0100)) = some ⟨.hdr, 0#3, 0#32, 0#4, 0#4, .noError, 0#4, []⟩ := by
  decide

/-- The host notation (R83): `PARSE [0x20]` is START, BYTE 0x20, EOI. -/
theorem test_parse_program :
    (assemble (parseProgram [0x20#8])).map (fun c => (c.vector, c.inData))
      = [(0b0100#4, 0x00#8), (0b0010#4, 0x20#8), (0b0001#4, 0x00#8)] := by decide

/-! ### Well-formedness: an ill-formed term for each check -/

theorem test_wellFormed_refuses_b0_outside_hdr :
    ∀ st, st ≠ .hdr →
      (Instr.connect 0#4).wellFormed st 1#3 = false ∧ (Instr.reserved15 0#4).wellFormed st 1#3 = false := by
  intro st h; cases st <;> first | exact absurd rfl h | decide

theorem test_wellFormed_refuses_length_rows :
    (Instr.rlCont 0#7).wellFormed .hdr 1#3 = false ∧ (Instr.rlCont 0#7).wellFormed .len 0#3 = false ∧
    (Instr.rlLast 0#7).wellFormed .len 5#3 = false ∧ (Instr.rlLast 0#7).wellFormed .done 2#3 = false ∧
    (Instr.rlOver 0#8).wellFormed .len 4#3 = false ∧ (Instr.rlOver 0#8).wellFormed .hdr 5#3 = false := by decide

theorem test_wellFormed_refuses_ctl_rows :
    (Instr.start false false 0#8).wellFormed .hdr 0#3 = false ∧
    (Instr.nopIdle false false 0#8).wellFormed .len 1#3 = false ∧
    (Instr.byteHdr false false 0#8).wellFormed .len 1#3 = false ∧
    (Instr.byteLen false false 0#8).wellFormed .hdr 1#3 = false ∧
    (Instr.byteLen false false 0#8).wellFormed .len 5#3 = false ∧
    (Instr.byteOver false false 0#8).wellFormed .len 4#3 = false ∧
    (Instr.byteOver false false 0#8).wellFormed .err 5#3 = false ∧
    (Instr.eoiHdr false 0#8).wellFormed .len 1#3 = false ∧
    (Instr.eoiLen false 0#8).wellFormed .hdr 0#3 = false ∧
    (Instr.nopBusy false 0#8).wellFormed .idle 0#3 = false := by decide

/-- Run outside its row's place, an instruction is refused by name. -/
theorem test_exec_refuses_elsewhere :
    refusal (exec (.connect 0#4) (len 1#3 0#32 .nop)) = some .notCarriedHere ∧
    refusal (exec (.rlLast 0#7) (len 5#3 0#32 .nop)) = some .notCarriedHere ∧
    refusal (exec (.start false false 0#8) (hdr .nop)) = some .notCarriedHere := by decide

/-! ### The byte rows (95_test_vectors.md 2.1; 2.4 CT13 to CT17), run by the byte's CTL row -/

/-- Rows PT0 to PT7: `BYTE b0` in HDR. -/
theorem test_step_byte0_PT0_to_PT7 :
    [0x03#8, 0x18#8, 0x2D#8, 0x32#8, 0x47#8, 0x5C#8, 0x61#8, 0x76#8].map (fun b => after (step (hdr (cyc 0b0010#4 b))))
      = [some ⟨.err, 1#3, 0#32, 0#4, 0#4, .invalidPacketType, 0#4, []⟩,
        some ⟨.len, 1#3, 0#32, 1#4, 0x8#4, .noError, 0#4, []⟩, some ⟨.len, 1#3, 0#32, 2#4, 0xD#4, .noError, 0#4, []⟩,
        some ⟨.len, 1#3, 0#32, 3#4, 0x2#4, .noError, 0#4, []⟩, some ⟨.len, 1#3, 0#32, 4#4, 0x7#4, .noError, 0#4, []⟩,
        some ⟨.len, 1#3, 0#32, 5#4, 0xC#4, .noError, 0#4, []⟩, some ⟨.len, 1#3, 0#32, 6#4, 0x1#4, .noError, 0#4, []⟩,
        some ⟨.len, 1#3, 0#32, 7#4, 0x6#4, .noError, 0#4, []⟩] := by decide

/-- Rows PT8 to PT15. -/
theorem test_step_byte0_PT8_to_PT15 :
    [0x8B#8, 0x90#8, 0xA5#8, 0xBA#8, 0xCF#8, 0xD4#8, 0xE9#8, 0xFE#8].map (fun b => after (step (hdr (cyc 0b0010#4 b))))
      = [some ⟨.len, 1#3, 0#32, 8#4, 0xB#4, .noError, 0#4, []⟩, some ⟨.len, 1#3, 0#32, 9#4, 0x0#4, .noError, 0#4, []⟩,
        some ⟨.len, 1#3, 0#32, 10#4, 0x5#4, .noError, 0#4, []⟩, some ⟨.len, 1#3, 0#32, 11#4, 0xA#4, .noError, 0#4, []⟩,
        some ⟨.len, 1#3, 0#32, 12#4, 0xF#4, .noError, 0#4, []⟩, some ⟨.len, 1#3, 0#32, 13#4, 0x4#4, .noError, 0#4, []⟩,
        some ⟨.len, 1#3, 0#32, 14#4, 0x9#4, .noError, 0#4, []⟩,
        some ⟨.err, 1#3, 0#32, 0#4, 0#4, .invalidPacketType, 15#4, []⟩] := by decide

/-- CT13 and CT16, as RL_CONT. -/
theorem test_exec_rlCont :
    after (exec (.rlCont 0x41#7) (len 1#3 0#32 .nop)) = some (len 2#3 0x41#32 .nop) ∧
    after (exec (.rlCont 0x7F#7) (len 4#3 0x1FFFFF#32 .nop)) = some (len 5#3 0x0FFFFFFF#32 .nop) := by decide

/-- CT15, as RL_LAST: shift 21. -/
theorem test_exec_rlLast :
    after (exec (.rlLast 0x7F#7) (len 4#3 0x1FFFFF#32 .nop))
      = some ⟨.done, 5#3, 0x0FFFFFFF#32, 3#4, 0#4, .noError, 0#4, [.nop]⟩ := by decide

/-- R190, as RL_OVER: the accumulator and the cursor stay. -/
theorem test_exec_rlOver :
    after (exec (.rlOver 0x01#8) (len 5#3 0x0FFFFFFF#32 .nop))
      = some ⟨.err, 5#3, 0x0FFFFFFF#32, 3#4, 0#4, .malformedVariableLength, 0#4, [.nop]⟩ := by decide

/-! ### The CTL rows (95_test_vectors.md 2.4) -/

/-- CT1 (from ERR) and CT23: reset, the byte not taken. -/
theorem test_step_reset :
    after (step (err (cyc 0b1100#4 0x20#8))) = some State.reset ∧
    after (step (len 3#3 0x41#32 (cyc 0b1010#4 0x00#8))) = some State.reset ∧
    (len 3#3 0x41#32 (cyc 0b1010#4 0x00#8)).consumes = none := by decide

/-- CT3 and CT4: START in DONE and ERR. -/
theorem test_step_start :
    after (step (done (cyc 0b0110#4 0x20#8))) = some ⟨.hdr, 0#3, 0#32, 0#4, 0#4, .noError, 0#4, []⟩ ∧
    (done (cyc 0b0110#4 0x20#8)).consumes = none ∧
    after (step (err (cyc 0b0100#4 0x00#8))) = some ⟨.hdr, 0#3, 0#32, 0#4, 0#4, .noError, 0#4, []⟩ := by decide

/-- CT5 and CT6: nothing changes, and the byte is not taken. -/
theorem test_step_nopIdle :
    after (step { State.reset with host := [cyc 0b0010#4 0x20#8] }) = some State.reset ∧
    State.consumes { State.reset with host := [cyc 0b0010#4 0x20#8] } = none ∧
    after (step (done (cyc 0b0001#4 0x00#8))) = some { done .nop with host := [] } := by decide

/-- CT9 and CT12: `in_eoi` is ignored beside a byte, and `start` in HDR. -/
theorem test_step_byteHdr :
    after (step (hdr (cyc 0b0011#4 0x10#8))) = some ⟨.len, 1#3, 0#32, 1#4, 0#4, .noError, 0#4, []⟩ ∧
    after (step (hdr (cyc 0b0110#4 0x20#8))) = some ⟨.len, 1#3, 0#32, 2#4, 0#4, .noError, 0#4, []⟩ ∧
    (hdr (cyc 0b0110#4 0x20#8)).consumes = some 0x20#8 := by decide

/-- CT13 and CT14. -/
theorem test_step_byteLen :
    after (step (len 1#3 0#32 (cyc 0b0010#4 0xC1#8))) = some { len 2#3 0x41#32 .nop with host := [] } ∧
    after (step (len 2#3 0x41#32 (cyc 0b0010#4 0x02#8)))
      = some ⟨.done, 3#3, 321#32, 3#4, 0#4, .noError, 0#4, []⟩ := by decide

/-- CT17 and CT18: the byte wins over `in_eoi`, and is not taken. -/
theorem test_step_byteOver :
    after (step (len 5#3 0#32 (cyc 0b0010#4 0x01#8)))
      = some ⟨.err, 5#3, 0#32, 3#4, 0#4, .malformedVariableLength, 0#4, []⟩ ∧
    after (step (len 5#3 0#32 (cyc 0b0011#4 0xFF#8)))
      = some ⟨.err, 5#3, 0#32, 3#4, 0#4, .malformedVariableLength, 0#4, []⟩ ∧
    (len 5#3 0#32 (cyc 0b0011#4 0xFF#8)).consumes = none := by decide

/-- CT10. -/
theorem test_step_eoiHdr :
    after (step (hdr (cyc 0b0001#4 0x00#8)))
      = some ⟨.err, 0#3, 0#32, 0#4, 0#4, .unexpectedEndOfInput, 0#4, []⟩ := by decide

/-- CT19 and CT20. -/
theorem test_step_eoiLen :
    after (step (len 5#3 0#32 (cyc 0b0001#4 0x00#8)))
      = some ⟨.err, 5#3, 0#32, 3#4, 0#4, .unexpectedEndOfInput, 0#4, []⟩ ∧
    after (step (len 2#3 0#32 (cyc 0b0001#4 0x00#8)))
      = some ⟨.err, 2#3, 0#32, 3#4, 0#4, .unexpectedEndOfInput, 0#4, []⟩ := by decide

/-- CT11, CT21 and CT22. -/
theorem test_step_nopBusy :
    after (step (hdr (cyc 0b0000#4 0x00#8))) = some { hdr .nop with host := [] } ∧
    after (step (len 3#3 5#32 (cyc 0b0000#4 0x00#8))) = some { len 3#3 5#32 .nop with host := [] } ∧
    after (step (len 3#3 5#32 (cyc 0b0100#4 0x00#8))) = some { len 3#3 5#32 .nop with host := [] } := by decide

/-! ### Outputs -/

/-- Scenario 3's DONE, P4's ERR, and P3's ERR, which shows no partial header (R36, R37). -/
theorem test_outputs :
    State.outputs ⟨.done, 3#3, 16258#32, 3#4, 12#4, .noError, 0#4, []⟩ false
      = ⟨false, false, true, false, 0#2, 0#4, 3#4, 12#4, 16258#32, 3#3⟩ ∧
    (err .nop).outputs false = ⟨false, false, false, true, 1#2, 15#4, 0#4, 0#4, 0#32, 1#3⟩ ∧
    State.outputs ⟨.err, 5#3, 268435455#32, 3#4, 0#4, .malformedVariableLength, 0#4, []⟩ false
      = ⟨false, false, false, true, 3#2, 0#4, 0#4, 0#4, 0#32, 5#3⟩ := by decide

/-- R34: `in_ready` by state and `rst`. -/
theorem test_inReady :
    (hdr .nop).inReady false = true ∧ (hdr .nop).inReady true = false ∧ (len 4#3 0#32 .nop).inReady false = true ∧
    (len 5#3 0#32 .nop).inReady false = false ∧ (done .nop).inReady false = false := by decide

/-! ### The functional layer -/

/-- The source's four scenarios. -/
theorem test_scenarios :
    parseFixedHeader [0x20#8, 0x7F#8] = .ok (⟨.connack, 0#4, 127#32⟩, []) ∧
    parseFixedHeader [0x10#8, 0xC1#8, 0x02#8] = .ok (⟨.connect, 0#4, 321#32⟩, []) ∧
    parseFixedHeader [0x3C#8, 0x82#8, 0x7F#8] = .ok (⟨.publish, 0xC#4, 16258#32⟩, []) ∧
    parseFixedHeader [0x20#8, 0x7F#8, 0xAA#8, 0xBB#8] = .ok (⟨.connack, 0#4, 127#32⟩, [0xAA#8, 0xBB#8]) := by decide

/-- Rows FH1 to FH7: the order of the checks. -/
theorem test_parser_errors :
    parseFixedHeader [] = .err .unexpectedEndOfInput ∧
    parseFixedHeader [0x00#8] = .err (.invalidPacketType 0#4) ∧
    parseFixedHeader [0xF0#8] = .err (.invalidPacketType 15#4) ∧
    parseFixedHeader [0x0F#8, 0x80#8] = .err (.invalidPacketType 0#4) ∧
    parseFixedHeader [0xF0#8, 0xFF#8, 0xFF#8, 0xFF#8, 0xFF#8, 0xFF#8] = .err (.invalidPacketType 15#4) ∧
    parseFixedHeader [0x10#8] = .err .unexpectedEndOfInput ∧
    parseFixedHeader [0x10#8, 0xC1#8] = .err .unexpectedEndOfInput := by decide

/-- Rows RL8, RL14, RL15, RL17, RL18d, RL19 and RL23. -/
theorem test_decoder_vectors :
    decodeRemainingLength [0x30#8, 0xFF#8, 0xFF#8, 0xFF#8, 0x7F#8] 1 = .ok (268435455#32, 4) ∧
    decodeRemainingLength [0x30#8, 0x80#8, 0x80#8, 0x80#8, 0x7F#8] 1 = .ok (266338304#32, 4) ∧
    decodeRemainingLength [0x30#8, 0x80#8, 0x00#8] 1 = .ok (0#32, 2) ∧
    decodeRemainingLength [0x30#8, 0x80#8, 0x80#8, 0x80#8, 0x00#8] 1 = .ok (0#32, 4) ∧
    decodeRemainingLength [0x30#8, 0xFF#8, 0xFF#8, 0xFF#8, 0xFF#8] 1 = .err .unexpectedEndOfInput ∧
    decodeRemainingLength [0x30#8, 0xFF#8, 0xFF#8, 0xFF#8, 0xFF#8, 0x01#8] 1 = .err .malformedVariableLength ∧
    decodeRemainingLength [0x30#8, 0x00#8, 0xFF#8] 1 = .ok (0#32, 1) := by decide

/-- The boundary rows of `MinEnc` (95_test_vectors.md 2.2). -/
theorem test_minEnc :
    [0, 127, 128, 16383, 16384, 2097151, 2097152, 268435455].map minEnc
      = [[0x00#8], [0x7F#8], [0x80#8, 0x01#8], [0xFF#8, 0x7F#8], [0x80#8, 0x80#8, 0x01#8], [0xFF#8, 0xFF#8, 0x7F#8],
        [0x80#8, 0x80#8, 0x80#8, 0x01#8], [0xFF#8, 0xFF#8, 0xFF#8, 0x7F#8]] := by decide

/-! ### Witnesses: states and operands that meet each statement's premises, at the ends of their ranges -/

/-- The invariant holds in a state of every control state, LEN and DONE at both ends of the cursor's range. -/
theorem witness_Inv :
    State.reset.Inv ∧ (hdr .nop).Inv ∧ (len 1#3 0#32 .nop).Inv ∧ (len 5#3 268435455#32 .nop).Inv ∧ (done .nop).Inv ∧
    (err .nop).Inv :=
  ⟨inv_of_cleared (.inl rfl) (by decide), inv_of_cleared (.inr rfl) (by decide),
    inv_of_field (.inl rfl) (by decide) rfl rfl, inv_of_field (.inl rfl) (by decide) rfl rfl,
    inv_of_field (.inr (by decide)) (by decide) rfl rfl, inv_of_error rfl (by decide)⟩

theorem witness_DecodeOfEncode :
    (Instr.publish 12#4).wellFormed .hdr 0#3 = true ∧ (Instr.rlCont 65#7).wellFormed .len 1#3 = true ∧
    (Instr.rlLast 2#7).wellFormed .len 4#3 = true ∧ (Instr.rlOver 1#8).wellFormed .len 5#3 = true ∧
    (Instr.start true true 1#8).wellFormed .err 1#3 = true ∧ (Instr.byteOver true true 1#8).wellFormed .len 5#3 = true ∧
    (Instr.nopBusy true 1#8).wellFormed .hdr 0#3 = true := by decide

theorem witness_EncodeOfDecode :
    decode .hdr 0#3 (.b0 0x3C#8) = .ok (.publish 12#4) ∧ decode .len 1#3 (.rlb 0xC1#8) = .ok (.rlCont 65#7) ∧
    decode .len 4#3 (.ctl 0b0010#4 0x02#8) = .ok (.byteLen false false 0x02#8) := ⟨rfl, rfl, rfl⟩

/-- Both cases of the statement occur. -/
theorem witness_CommandIsFirstMatchingRow :
    (ctlRows.find? (fun row => row.carries .len 5#3 0b0011#4)).map (·.mnemonic) = some "BYTE_OVER" ∧
    (ctlRows.find? (fun row => row.carries .len 6#3 0b0011#4)) = none := by decide

theorem witness_StepRunsDecodedCommand :
    decodeCtl (hdr (cyc 0b0010#4 0x3C#8)).st (hdr (cyc 0b0010#4 0x3C#8)).pos (hdr (cyc 0b0010#4 0x3C#8)).inputs.vector
      (hdr (cyc 0b0010#4 0x3C#8)).inputs.inData = .ok (.byteHdr false false 0x3C#8) := rfl

theorem witness_StepRunsTheRuleOfTheTable :
    (len 1#3 0#32 ⟨false, true, true, true, 0xC1#8⟩).host = ⟨false, true, true, true, 0xC1#8⟩ :: [] ∧
    ((len 1#3 0#32 .nop).st = .len → 1 ≤ (len 1#3 0#32 .nop).pos.toNat ∧ (len 1#3 0#32 .nop).pos.toNat ≤ 5) ∧
    ((len 5#3 0#32 .nop).st = .len → 1 ≤ (len 5#3 0#32 .nop).pos.toNat ∧ (len 5#3 0#32 .nop).pos.toNat ≤ 5) ∧
    ((hdr .nop).st = .len → 1 ≤ (hdr .nop).pos.toNat ∧ (hdr .nop).pos.toNat ≤ 5) := by decide

/-- The one stop is met at `pos` 0, 6 and 7, and not at 1 and 5. -/
theorem witness_StepStopsOnlyWithoutARow :
    [0#3, 1#3, 5#3, 6#3, 7#3].map (fun p => (after (step (len p 0#32 (cyc 0b0010#4 0x01#8)))).isNone)
      = [true, false, false, true, true] := by decide

theorem witness_InstructionCompletesExactlyWhereCarried :
    (Instr.rlCont 1#7).wellFormed (len 4#3 0#32 .nop).st (len 4#3 0#32 .nop).pos = true ∧
    (Instr.rlCont 1#7).wellFormed (len 5#3 0#32 .nop).st (len 5#3 0#32 .nop).pos = false := by decide

theorem witness_ByteCommandRunsItsByteRow :
    (hdr .nop).st = .hdr ∧ (len 1#3 0#32 .nop).st = .len ∧
    decodeRlb ((len 1#3 0#32 .nop).pos.toNat - 1) 0xC1#8 = .ok (.rlCont 65#7) ∧
    decodeRlb ((len 4#3 0#32 .nop).pos.toNat - 1) 0x02#8 = .ok (.rlLast 2#7) ∧
    (len 5#3 0#32 .nop).pos = 5#3 ∧ decodeRlb 4 0xC1#8 = .ok (.rlOver 0xC1#8) := ⟨rfl, rfl, rfl, rfl, rfl, rfl⟩

theorem witness_ResetFromAnyState : (len 3#3 0x41#32 (cyc 0b1010#4 0x02#8)).inputs.rst = true := rfl

theorem witness_StartBeginsAttempt :
    [State.reset, done .nop, err .nop].map (fun s => s.st.resting) = [true, true, true] ∧
    (done (cyc 0b0110#4 0x20#8)).inputs.rst = false ∧ (done (cyc 0b0110#4 0x20#8)).inputs.start = true := by decide

theorem witness_StartWhileBusyHasNoEffect :
    (hdr .nop).busy = true ∧ (len 5#3 0#32 (cyc 0b0100#4 0x20#8)).busy = true ∧
    (len 5#3 0#32 (cyc 0b0100#4 0x20#8)).host = cyc 0b0100#4 0x20#8 :: [] := by decide

theorem witness_RestingCycleChangesNothing :
    (done (cyc 0b0011#4 0xAA#8)).st.resting = true ∧ (done (cyc 0b0011#4 0xAA#8)).inputs.rst = false ∧
    (done (cyc 0b0011#4 0xAA#8)).inputs.start = false := by decide

theorem witness_BusyCycleWithoutInputChangesNothing :
    (len 3#3 0#32 (cyc 0b0100#4 0xAA#8)).busy = true ∧ (len 3#3 0#32 (cyc 0b0100#4 0xAA#8)).inputs.rst = false ∧
    (len 3#3 0#32 (cyc 0b0100#4 0xAA#8)).inputs.inValid = false ∧
    (len 3#3 0#32 (cyc 0b0100#4 0xAA#8)).inputs.inEoi = false := by decide

theorem witness_EndOfInputReadOnlyWithoutAByte :
    (hdr (cyc 0b0010#4 0x10#8)).host = cyc 0b0010#4 0x10#8 :: [] ∧ (cyc 0b0010#4 0x10#8).inValid = true ∧
    (done (cyc 0b0001#4 0x00#8)).st.resting = true := by decide

/-- A cycle with no byte, and one whose byte is not taken. -/
theorem witness_DataSampledOnlyWhenConsumed :
    (hdr (cyc 0b0001#4 0x10#8)).consumes = none ∧ (len 5#3 0#32 (cyc 0b0010#4 0x10#8)).consumes = none := by decide

theorem witness_ByteZeroTaken :
    (hdr (cyc 0b0010#4 0x3C#8)).st = .hdr ∧
    (hdr ⟨false, true, true, true, 0xF7#8⟩).host = ⟨false, true, true, true, 0xF7#8⟩ :: [] := by decide

/-- The state premise of the reserved and valid code rules. -/
theorem witness_CodeRules : (hdr .nop).st = .hdr := rfl

theorem witness_EmptyFrameIsAnError :
    (hdr ⟨false, true, false, true, 0x00#8⟩).host = ⟨false, true, false, true, 0x00#8⟩ :: [] ∧
    (hdr (cyc 0b0001#4 0x00#8)).Inv ∧ (hdr (cyc 0b0001#4 0x00#8)).st ≠ .err ∧
    (after (step (hdr (cyc 0b0001#4 0x00#8)))).map (fun t => (t.st, t.pos)) = some (.err, 0#3) :=
  ⟨rfl, inv_of_cleared (.inr rfl) (by decide), by decide, by decide⟩

theorem witness_LengthByteTaken :
    (∀ s ∈ [len 1#3 0#32 ⟨false, false, true, true, 0xFF#8⟩, len 4#3 0x1FFFFF#32 ⟨false, false, true, true, 0xFF#8⟩],
      s.st = .len ∧ 1 ≤ s.pos.toNat ∧ s.pos.toNat ≤ 4 ∧ s.host = ⟨false, false, true, true, 0xFF#8⟩ :: []) ∧
    (len 1#3 0#32 ⟨false, false, true, true, 0xFF#8⟩).Inv ∧
    (len 4#3 0x1FFFFF#32 ⟨false, false, true, true, 0xFF#8⟩).Inv :=
  ⟨by decide, inv_of_field (.inl rfl) (by decide) rfl rfl, inv_of_field (.inl rfl) (by decide) rfl rfl⟩

theorem witness_LengthRowsWriteAccumulator :
    ∀ s ∈ [len 1#3 0#32 .nop, len 4#3 0#32 .nop], s.st = .len ∧ 1 ≤ s.pos.toNat ∧ s.pos.toNat ≤ 4 := by decide

theorem witness_FifthLengthByteIsAnError :
    (len 5#3 0#32 .nop).st = .len ∧ (len 5#3 0#32 .nop).pos = 5#3 ∧
    (len 5#3 0#32 ⟨false, false, true, false, 0x01#8⟩).host = ⟨false, false, true, false, 0x01#8⟩ :: [] := by decide

theorem witness_EndOfInputInFieldIsAnError :
    (len 5#3 0#32 .nop).st = .len ∧ (len 1#3 0#32 .nop).st = .len ∧
    (len 1#3 0#32 ⟨false, true, false, true, 0x00#8⟩).host = ⟨false, true, false, true, 0x00#8⟩ :: [] := by decide

/-- `StepKeepsInvariant`, `StepCompletesFromInvariant`: an invariant state whose step answers a next state. -/
theorem witness_StepKeepsInvariant :
    (len 4#3 0x1FFFFF#32 (cyc 0b0010#4 0xFF#8)).Inv ∧
    after (step (len 4#3 0x1FFFFF#32 (cyc 0b0010#4 0xFF#8))) = some { len 5#3 0x0FFFFFFF#32 .nop with host := [] } :=
  ⟨inv_of_field (.inl rfl) (by decide) rfl rfl, by decide⟩

/-- The rules on one step of any state: each register's cases occur (`ControlStateTransitions`,
`CursorCountsConsumedBytes`, `TypeAndFlagsWrittenByByteZero`, `AccumulatorWrittenByLengthBytes`,
`ErrorKindWrittenOnErrorEntry`, `ErrorValueWrittenOnRejection`). -/
theorem witness_OneStepRules :
    (after (step (hdr (cyc 0b0010#4 0x3C#8)))).isSome = true ∧ (hdr (cyc 0b0010#4 0x3C#8)).pos = 0#3 ∧
    (after (step (done (cyc 0b0100#4 0x00#8)))).isSome = true ∧ (done (cyc 0b0100#4 0x00#8)).startTaken ∧
    (after (step (hdr (cyc 0b0010#4 0xF7#8)))).map (fun t => (t.ekind, t.evalue, t.st))
      = some (.invalidPacketType, 15#4, .err) ∧
    (after (step (len 1#3 0#32 (cyc 0b0010#4 0x02#8)))).map (fun t => t.st) = some .done ∧
    (done .nop).Inv ∧ (done .nop).ekind ≠ .invalidPacketType ∧ (done .nop).st = .done :=
  ⟨by decide, by decide, by decide, by decide, by decide, by decide, witness_Inv.2.2.2.2.1, by decide, by decide⟩

/-- Every instruction that enters ERR, from a state not in it. -/
theorem witness_ErrorEntryFrame :
    [exec (.reserved0 5#4) (hdr .nop), exec (.byteHdr false false 0xF7#8) (hdr .nop), exec (.eoiHdr false 0#8) (hdr .nop),
      exec (.eoiLen false 0#8) (len 5#3 0#32 .nop), exec (.rlOver 0#8) (len 5#3 0#32 .nop)].map
        (fun e => (after e).map (fun t => (t.st, t.ekind)))
      = [some (.err, .invalidPacketType), some (.err, .invalidPacketType), some (.err, .unexpectedEndOfInput),
        some (.err, .unexpectedEndOfInput), some (.err, .malformedVariableLength)] ∧
    (hdr .nop).st ≠ .err ∧ (len 5#3 0#32 .nop).st ≠ .err := by decide

theorem witness_ErrorHeldUntilStartOrReset :
    (err (cyc 0b0010#4 0x05#8)).st = .err ∧ after (step (err (cyc 0b0010#4 0x05#8))) = some { err .nop with host := [] } := by
  decide

theorem witness_InstructionsKeepHostInputs :
    (after (exec (.connect 1#4) (hdr .nop))).map (fun t => t.host) = some [.nop] := by decide

theorem witness_ByteRowsFrame :
    (after (exec (.byteHdr false false 0x3C#8) (hdr .nop))).map (fun t => t.st) = some .len ∧
    (after (exec (.byteHdr false false 0x0C#8) (hdr .nop))).map (fun t => t.st) = some .err ∧
    (after (exec (.byteLen false false 0x02#8) (len 4#3 0#32 .nop))).map (fun t => t.st) = some .done := by decide

theorem witness_OutputPorts :
    (err .nop).st = .err ∧ (done .nop).st = .done ∧ (hdr .nop).st ≠ .err ∧ (hdr .nop).st ≠ .done := by decide

theorem witness_StatusBitsExclusive :
    (State.reset.outputs false).busy = false ∧ (State.reset.outputs false).done = false ∧
    (State.reset.outputs false).error = false := by decide

theorem witness_ResolverIsABijection :
    (0#4 = 0#4 ∨ 0#4 = 15#4) ∧ (15#4 = 0#4 ∨ 15#4 = 15#4) ∧ 1#4 ≠ 0#4 ∧ 1#4 ≠ 15#4 ∧ 14#4 ≠ 0#4 ∧ 14#4 ≠ 15#4 := by
  decide

/-- `DecodedLengthIsChunkSum`, `DecodedLengthBound`: fields of one and of four bytes. -/
theorem witness_DecodedLength :
    decodeRemainingLength [0x00#8] 0 = .ok (0#32, 1) ∧
    decodeRemainingLength [0x30#8, 0xFF#8, 0xFF#8, 0xFF#8, 0x7F#8] 1 = .ok (268435455#32, 4) := by decide

theorem witness_DecoderStopsAtTheField :
    decodeRemainingLength [0x30#8, 0x7F#8, 0xAA#8] 1 = .ok (127#32, 1) ∧
    ([0x10#8, 0x7F#8].drop 1).take 1 = ([0x30#8, 0x7F#8, 0xAA#8].drop 1).take 1 ∧
    decodeRemainingLength [0x80#8, 0x80#8, 0x80#8, 0x80#8, 0x00#8] 0 = .err .malformedVariableLength ∧
    ([0x80#8, 0x80#8, 0x80#8, 0x80#8, 0xFF#8].drop 0).take 4 = ([0x80#8, 0x80#8, 0x80#8, 0x80#8, 0x00#8].drop 0).take 4 ∧
    0 + 4 < [0x80#8, 0x80#8, 0x80#8, 0x80#8, 0xFF#8].length := by decide

theorem witness_MinimalEncodingRoundTrip :
    0 ≤ 268435455 ∧ (([0x30#8, 0x00#8].drop 1).take (minEnc 0).length = minEnc 0) ∧
    (([0x30#8, 0xFF#8, 0xFF#8, 0xFF#8, 0x7F#8, 0x99#8].drop 1).take (minEnc 268435455).length = minEnc 268435455) := by
  decide

theorem witness_FourContinuationBytes :
    (∀ i, i < 4 → ∃ b, memRead [0x30#8, 0x80#8, 0xFF#8, 0x80#8, 0xFF#8] (1 + i) = some b ∧ contBit b = true) ∧
    [0x30#8, 0x80#8, 0xFF#8, 0x80#8, 0xFF#8].length = 1 + 4 ∧
    (∀ i, i < 4 → ∃ b, memRead [0x30#8, 0x80#8, 0xFF#8, 0x80#8, 0xFF#8, 0x01#8] (1 + i) = some b ∧ contBit b = true) ∧
    1 + 4 < [0x30#8, 0x80#8, 0xFF#8, 0x80#8, 0xFF#8, 0x01#8].length := by
  refine ⟨fun i hi => ?_, by decide, fun i hi => ?_, by decide⟩ <;> interval_cases i <;> exact ⟨_, rfl, by decide⟩

theorem witness_EndBeforeTerminator :
    0 ≤ 4 ∧ avail [0x30#8] (1 + 0) = false ∧
    avail [0x30#8, 0x80#8] (1 + 1) = false ∧ (∀ i, i < 1 → ∃ b, memRead [0x30#8, 0x80#8] (1 + i) = some b ∧ contBit b = true) := by
  refine ⟨by decide, by decide, by decide, fun i hi => ?_⟩
  interval_cases i
  exact ⟨_, rfl, by decide⟩

theorem witness_ParserChecksInOrder :
    typeCode 0x0F#8 = 0#4 ∧ typeCode 0xF0#8 = 15#4 ∧ typeCode 0x10#8 ≠ 0#4 ∧ typeCode 0xE0#8 ≠ 15#4 ∧
    decodeRemainingLength (0x10#8 :: [0xC1#8]) 1 = .err .unexpectedEndOfInput ∧
    decodeRemainingLength (0xE0#8 :: [0x00#8]) 1 = .ok (0#32, 1) := by decide

theorem witness_ParserResultIsPrefixStable :
    parseFixedHeader [0x20#8, 0x7F#8] = .ok (⟨.connack, 0#4, 127#32⟩, []) ∧
    parseFixedHeader [0x00#8] = .err (.invalidPacketType 0#4) ∧
    ParseError.invalidPacketType 0#4 ≠ .unexpectedEndOfInput := by decide

/-- Two different frames that agree on the first five bytes, both with a sixth. -/
theorem witness_ParserReadsAtMostFiveBytes :
    [0x30#8, 0xFF#8, 0xFF#8, 0xFF#8, 0xFF#8, 0x01#8].take 5 = [0x30#8, 0xFF#8, 0xFF#8, 0xFF#8, 0xFF#8, 0x02#8, 0x03#8].take 5 ∧
    (5 < [0x30#8, 0xFF#8, 0xFF#8, 0xFF#8, 0xFF#8, 0x01#8].length
      ↔ 5 < [0x30#8, 0xFF#8, 0xFF#8, 0xFF#8, 0xFF#8, 0x02#8, 0x03#8].length) ∧
    [0x20#8, 0x7F#8].take 5 = [0x20#8, 0x7F#8].take 5 ∧
    parseFixedHeader [0x20#8, 0x7F#8] = .ok (⟨.connack, 0#4, 127#32⟩, []) := by decide

theorem witness_HeaderFieldsInRange :
    parseFixedHeader [0xE0#8, 0xFF#8, 0xFF#8, 0xFF#8, 0x7F#8] = .ok (⟨.disconnect, 0#4, 268435455#32⟩, []) := by decide

/-- R196 on `[0x20, 0x7F]`: START, then a NOP, then the two bytes, to DONE in two cycles that are no NOP. -/
theorem witness_BlockComputesParseFixedHeader :
    (State.reset.withProgram [.start, .nop, .byte 0x20#8, .byte 0x7F#8]).startTaken ∧
    step (State.reset.withProgram [.start, .nop, .byte 0x20#8, .byte 0x7F#8])
      = .next ⟨.hdr, 0#3, 0#32, 0#4, 0#4, .noError, 0#4, assemble [.nop, .byte 0x20#8, .byte 0x7F#8]⟩ ∧
    BusyRun [0x20#8, 0x7F#8] 2 ⟨.hdr, 0#3, 0#32, 0#4, 0#4, .noError, 0#4, assemble [.nop, .byte 0x20#8, .byte 0x7F#8]⟩
      ⟨.done, 2#3, 127#32, 2#4, 0#4, .noError, 0#4, []⟩ ∧
    State.busy ⟨.done, 2#3, 127#32, 2#4, 0#4, .noError, 0#4, []⟩ = false :=
  ⟨by decide, rfl,
    .nop _ _ _ _ rfl (by decide) rfl
      (.act _ _ _ _ rfl (by decide) rfl (.act _ _ _ _ rfl (by decide) rfl (.nil _))), rfl⟩

theorem witness_HeaderTakesTwoPlusLengthCycles :
    parseFixedHeader [0x10#8, 0xC1#8, 0x02#8] = .ok (⟨.connect, 0#4, 321#32⟩, []) ∧
    decodeRemainingLength [0x10#8, 0xC1#8, 0x02#8] 1 = .ok (321#32, 2) ∧ (err .nop).st.resting = true ∧
    1 ≤ 1 ∧ 3 < 2 + 2 := by decide

end Sys2Proof.Tests
end

/-! The statements on the state registers and the outputs (spec/10_state.md): the invariant of reachable states, the
completion of every step from it, one rule per register, and the output ports. -/

namespace Sys2Proof.Machine

/-! ### The cursor -/

theorem pos_succ_toNat {p : Pos} (h : p.toNat ≤ 4) : (p + 1#3).toNat = p.toNat + 1 := by
  rw [BitVec.toNat_add, BitVec.toNat_ofNat]
  omega

theorem pos_ne_five_of_le {p : Pos} (h : p.toNat ≤ 4) : p ≠ 5#3 := by
  rintro rfl
  exact absurd h (by decide)

/-! ### The invariant -/

theorem clearRegisters_cleared (s : State) : s.clearRegisters.Cleared := ⟨rfl, rfl, rfl, rfl, rfl, rfl⟩

theorem beginAttempt_cleared (s : State) : s.beginAttempt.Cleared := ⟨rfl, rfl, rfl, rfl, rfl, rfl⟩

/-- The invariant's rows of IDLE and HDR. -/
theorem cleared_of_inv {s : State} (hs : s.Inv) (hst : s.st = .idle ∨ s.st = .hdr) : s.Cleared := by
  obtain ⟨hidle, hhdr, -⟩ := hs
  exact hst.elim hidle hhdr

/-- The invariant's rows of LEN and DONE. -/
theorem inField_of_inv {s : State} (hs : s.Inv) (hst : s.st = .len ∨ s.st = .done) : s.InField := by
  obtain ⟨-, -, hlen, hdone, -⟩ := hs
  exact hst.elim (fun h => (hlen h).1) (fun h => (hdone h).1)

/-- The invariant's row of ERR. -/
theorem errorForm_of_inv {s : State} (hs : s.Inv) (hst : s.st = .err) : s.ErrorForm := by
  obtain ⟨-, -, -, -, herr⟩ := hs
  exact herr hst

/-- Outside ERR the invariant leaves no error in the error registers. -/
theorem noError_of_inv {s : State} (hs : s.Inv) (hst : s.st ≠ .err) : s.ekind = .noError ∧ s.evalue = 0#4 := by
  have hcleared (h : s.st = .idle ∨ s.st = .hdr) : s.ekind = .noError ∧ s.evalue = 0#4 := by
    obtain ⟨-, -, -, -, herror⟩ := cleared_of_inv hs h
    exact herror
  obtain ⟨-, -, hlen, hdone, -⟩ := hs
  cases h : s.st
  case idle => exact hcleared (.inl h)
  case hdr => exact hcleared (.inr h)
  case len => exact (hlen h).2
  case done =>
    obtain ⟨-, -, herror⟩ := hdone h
    exact herror
  case err => exact absurd h hst

/-- Taking one of the four length bytes keeps the field's form: the chunk's OR stays below the next power of 128. -/
theorem takeLengthByte_inField {s : State} (more : Bool) (chunk : Chunk) (h : s.InField) (hpos : s.pos.toNat ≤ 4) :
    (s.takeLengthByte more chunk).InField := by
  obtain ⟨hlo, -, hacc, htype⟩ := h
  obtain ⟨-, hsum, -⟩ := chunkTerm_or s.acc chunk (lengthIndex s.pos) (by unfold lengthIndex; omega) hacc
  have hindex : s.pos.toNat + 1 - 1 = lengthIndex s.pos + 1 := by unfold lengthIndex; omega
  refine ⟨?_, ?_, ?_, htype⟩ <;> rw [State.takeLengthByte_pos, pos_succ_toNat hpos]
  · omega
  · omega
  · rw [hindex]; exact hsum

/-- After a length byte the cursor is at least 2, which is what DONE asks of it. -/
theorem two_le_pos_takeLengthByte {s : State} (more : Bool) (chunk : Chunk) (hlo : 1 ≤ s.pos.toNat)
    (hhi : s.pos.toNat ≤ 4) : 2 ≤ (s.takeLengthByte more chunk).pos.toNat := by
  rw [State.takeLengthByte_pos, pos_succ_toNat hhi]
  omega

/-- A length byte of a running field leads to LEN or DONE, whichever its continuation bit says, with the invariant. -/
theorem inv_takeLengthByte {s : State} (more : Bool) (chunk : Chunk) (hs : s.Inv) (hst : s.st = .len)
    (hhi : s.pos.toNat ≤ 4) : (s.takeLengthByte more chunk).Inv := by
  have hfield := inField_of_inv hs (.inl hst)
  obtain ⟨hkind, hvalue⟩ := noError_of_inv hs (by rw [hst]; decide)
  refine inv_of_field ?_ (takeLengthByte_inField more chunk hfield hhi) hkind hvalue
  cases more
  case true => exact .inl hst
  case false => exact .inr ⟨rfl, two_le_pos_takeLengthByte false chunk hfield.1 hhi⟩

/-- A valid byte 0 of a cleared attempt starts an empty field. -/
theorem inv_acceptByte0 {s : State} {code : Nibble} (flags : Nibble) (hc : s.Cleared)
    (hcode : validType code = true) : (s.acceptByte0 code flags).Inv := by
  obtain ⟨-, hacc, -, -, hkind, hvalue⟩ := hc
  refine inv_of_field (.inl rfl) ⟨?_, ?_, ?_, hcode⟩ hkind hvalue
  · rw [State.acceptByte0_pos]; decide
  · rw [State.acceptByte0_pos]; decide
  · rw [State.acceptByte0_pos, State.acceptByte0_acc, hacc]; decide

/-- A reserved byte 0 of a cleared attempt is R215's InvalidPacketType. -/
theorem inv_rejectByte0 {s : State} {code : Nibble} (hc : s.Cleared) (hcode : code = 0#4 ∨ code = 15#4) :
    (s.rejectByte0 code).Inv := by
  obtain ⟨-, hacc, htype, hflags, -, -⟩ := hc
  exact inv_of_error rfl (.inl ⟨rfl, hcode, rfl, hacc, htype, hflags⟩)

/-- The end of input, before byte 0 or inside the field, is R215's UnexpectedEndOfInput. -/
theorem inv_raise_eoi {s : State} (hs : s.Inv) (hst : s.st = .hdr ∨ s.st = .len) :
    (s.raiseError .unexpectedEndOfInput).Inv := by
  obtain ⟨-, hvalue⟩ := noError_of_inv hs (by rcases hst with hst | hst <;> rw [hst] <;> decide)
  refine inv_of_error rfl (.inr (.inl ⟨rfl, hvalue, ?_⟩))
  rcases hst with hst | hst
  · obtain ⟨hpos, hacc, htype, hflags, -⟩ := cleared_of_inv hs (.inr hst)
    exact .inl ⟨hpos, hacc, htype, hflags⟩
  · have hfield : s.InField := inField_of_inv hs (.inl hst)
    exact .inr hfield

/-- A fifth length byte is R215's MalformedVariableLength. -/
theorem inv_raise_malformed {s : State} (hs : s.Inv) (hst : s.st = .len) (hpos : s.pos = 5#3) :
    (s.raiseError .malformedVariableLength).Inv := by
  obtain ⟨-, hvalue⟩ := noError_of_inv hs (by rw [hst]; decide)
  have hfield : s.InField := inField_of_inv hs (.inl hst)
  exact inv_of_error rfl (.inr (.inr ⟨rfl, hvalue, hpos, hfield⟩))

/-- Settles O27, by the rule that the step runs: each operation on the registers keeps the invariant. -/
theorem stepKeepsInvariant : Obligations.StepKeepsInvariant := by
  intro s t hs h
  have ha : s.advance.Inv := inv_of_host hs _
  cases step_cases h with
  | reset => exact inv_of_cleared (.inl rfl) (clearRegisters_cleared _)
  | start => exact inv_of_cleared (.inr rfl) (beginAttempt_cleared _)
  | rest | wait => exact ha
  | accept _ hst _ hcode => exact inv_acceptByte0 _ (cleared_of_inv ha (.inr hst)) hcode
  | reject _ hst _ hcode => exact inv_rejectByte0 (cleared_of_inv ha (.inr hst)) hcode
  | take _ hst _ _ hhi => exact inv_takeLengthByte _ _ ha hst hhi
  | fifth _ hst _ hpos => exact inv_raise_malformed ha hst hpos
  | ended _ hst => exact inv_raise_eoi ha hst

/-- Settles O28: reset clears every register. -/
theorem resetMeetsInvariant : Obligations.ResetMeetsInvariant :=
  inv_of_cleared (.inl rfl) (clearRegisters_cleared State.reset)

/-- In ERR the invariant leaves no NONE in `ekind`. -/
theorem ekind_ne_noError_of_errorForm {s : State} (h : s.ErrorForm) : s.ekind ≠ .noError := by
  rcases h with ⟨hk, -⟩ | ⟨hk, -⟩ | ⟨hk, -⟩ <;> rw [hk] <;> decide

/-- Of ERR's forms only InvalidPacketType's holds an error value. -/
theorem evalue_of_errorForm {s : State} (h : s.ErrorForm) (hk : s.ekind ≠ .invalidPacketType) : s.evalue = 0#4 := by
  rcases h with ⟨hk', -⟩ | ⟨-, hv, -⟩ | ⟨-, hv, -⟩
  · exact absurd hk' hk
  · exact hv
  · exact hv

/-! ### Completion -/

/-- The step has a rule wherever a byte in LEN finds the cursor at 1 to 5. -/
theorem step_completes_of_cursor {s : State} (hlen : s.st = .len → 1 ≤ s.pos.toNat ∧ s.pos.toNat ≤ 5) :
    ∃ t, step s = .next t := by
  rw [step_eq]
  unfold stepOn
  cases hr : s.inputs.rst
  case true => exact ⟨_, rfl⟩
  cases hst : s.advance.st
  case len =>
    have hpos := hlen hst
    by_cases h5 : s.pos = 5#3
    · cases hv : s.inputs.inValid <;> simp [h5]
    · have hle : s.pos.toNat ≠ 5 := fun h => h5 (BitVec.eq_of_toNat_eq h)
      have hin : lengthPos s.pos = true := by
        simp only [lengthPos, Bool.and_eq_true, decide_eq_true_eq]; omega
      cases hv : s.inputs.inValid <;> simp [h5, hin]
  all_goals exact ⟨_, rfl⟩

/-- Settles O29: the invariant's LEN row gives the cursor's range. -/
theorem stepCompletesFromInvariant : Obligations.StepCompletesFromInvariant := by
  intro s hs
  refine step_completes_of_cursor fun hst => ?_
  obtain ⟨hlo, hhi, -⟩ := inField_of_inv hs (.inl hst)
  exact ⟨hlo, hhi⟩

/-! ### The control state -/

/-- Settles O30, by the rule that the step runs. -/
theorem controlStateTransitions : Obligations.ControlStateTransitions := by
  intro s t h
  cases step_cases h with
  | rest | wait => exact .inl rfl
  | reset hr => simp [hr]
  | start hr hs hst => simp [hr, hs, (resting_iff s.st).mp hst]
  | accept hr hst hv => simp [hr, hst, hv]
  | reject hr hst hv => simp [hr, hst, hv]
  | fifth hr hst hv hpos => simp [hr, hst, hv, hpos]
  | ended hr hst hv he => rcases hst with hst | hst <;> simp [hr, hst, hv, he]
  | take hr hst hv _ hhi =>
    have hpos := pos_ne_five_of_le hhi
    cases hc : contBit s.inputs.inData <;> simp [hr, hst, hv, hpos]

/-! ### Consume() and START by rule -/

theorem consumes_of_noByte {s : State} (h : s.inputs.inValid = false) : s.consumes = none := by
  simp [State.consumes, h]

theorem consumes_of_notReady {s : State} (h : s.inReady s.inputs.rst = false) : s.consumes = none := by
  simp [State.consumes, h]

theorem consumes_of_ready {s : State} (hv : s.inputs.inValid = true) (h : s.inReady s.inputs.rst = true) :
    s.consumes = some s.inputs.inData := by
  simp [State.consumes, hv, h]

theorem inReady_of_resting {s : State} (h : s.st.resting = true) (rst : Bool) : s.inReady rst = false := by
  rcases (resting_iff s.st).mp h with h | h | h <;> simp [State.inReady, h]

theorem inReady_of_hdr {s : State} (h : s.st = .hdr) : s.inReady false = true := by simp [State.inReady, h]

theorem inReady_of_len {s : State} (h : s.st = .len) : s.inReady false = decide (s.pos ≠ 5#3) := by
  simp [State.inReady, h, Config.posMax]

theorem not_startTaken_of_low {s : State} (h : s.inputs.start = false) : ¬ s.startTaken := by
  rintro ⟨-, hs, -⟩
  rw [h] at hs
  cases hs

theorem not_startTaken_of_busy {s : State} (h : s.st = .hdr ∨ s.st = .len) : ¬ s.startTaken := by
  rintro ⟨-, -, hst⟩
  rcases h with h | h <;> rw [h] at hst <;> cases hst

/-! ### The registers' writes by what the cycle consumes -/

/-- The cycle neither resets nor starts an attempt. -/
abbrev State.runsOn (s : State) : Prop := s.inputs.rst = false ∧ ¬ s.startTaken

theorem runsOn_of_busy {s : State} (hr : s.inputs.rst = false) (h : s.st = .hdr ∨ s.st = .len) : s.runsOn :=
  ⟨hr, not_startTaken_of_busy h⟩

theorem not_clearing_of_runsOn {s : State} (h : s.runsOn) : ¬ (s.inputs.rst = true ∨ s.startTaken) := by
  obtain ⟨hr, hs⟩ := h
  simp [hr, hs]

/-- What one cycle writes, by what it consumes: everything is cleared, or a consumed byte is taken by its rule, or no
byte is consumed and only `st` and `ekind` may change. -/
inductive WriteCase (s : State) : State → Prop
  /-- R182, R240 -/
  | clear {t : State} : s.inputs.rst = true ∨ s.startTaken → t.Cleared → WriteCase s t
  /-- R185 -/
  | accept (b : Byte) : s.runsOn → s.st = .hdr → s.consumes = some b → validType (typeCode b) = true →
      WriteCase s (s.advance.acceptByte0 (typeCode b) (flagsOf b))
  /-- R186 -/
  | reject (b : Byte) : s.runsOn → s.st = .hdr → s.consumes = some b → typeCode b = 0#4 ∨ typeCode b = 15#4 →
      WriteCase s (s.advance.rejectByte0 (typeCode b))
  /-- R188 -/
  | take (b : Byte) : s.runsOn → s.st = .len → s.consumes = some b →
      WriteCase s (s.advance.takeLengthByte (contBit b) (chunkOf b))
  /-- R187, R190 to R192, R194 -/
  | keep (st : CtlState) (kind : ErrKind) : s.runsOn → s.consumes = none →
      WriteCase s { s.advance with st := st, ekind := kind }

/-- A step that answers a next state is one of the write cases. -/
theorem write_cases {s t : State} (h : step s = .next t) : WriteCase s t := by
  cases step_cases h with
  | reset hr => exact .clear (.inl hr) (clearRegisters_cleared _)
  | start hr hs hst => exact .clear (.inr ⟨hr, hs, hst⟩) (beginAttempt_cleared _)
  | rest hr hs hst =>
    exact .keep _ _ ⟨hr, not_startTaken_of_low hs⟩ (consumes_of_notReady (inReady_of_resting hst _))
  | accept hr hst hv hcode =>
    exact .accept _ (runsOn_of_busy hr (.inl hst)) hst (consumes_of_ready hv (hr ▸ inReady_of_hdr hst)) hcode
  | reject hr hst hv hcode =>
    exact .reject _ (runsOn_of_busy hr (.inl hst)) hst (consumes_of_ready hv (hr ▸ inReady_of_hdr hst)) hcode
  | take hr hst hv hlo hhi =>
    have hready : s.inReady s.inputs.rst = true := by
      rw [hr, inReady_of_len hst, decide_eq_true (pos_ne_five_of_le hhi)]
    exact .take _ (runsOn_of_busy hr (.inr hst)) hst (consumes_of_ready hv hready)
  | fifth hr hst hv hpos =>
    have hready : s.inReady s.inputs.rst = false := by rw [hr, inReady_of_len hst]; simp [hpos]
    exact .keep _ _ (runsOn_of_busy hr (.inr hst)) (consumes_of_notReady hready)
  | ended hr hst hv | wait hr hst hv => exact .keep _ _ (runsOn_of_busy hr hst) (consumes_of_noByte hv)

/-- Reset and a taken START clear every register but `st`. -/
theorem step_cleared {s t : State} (h : step s = .next t) (hc : s.inputs.rst = true ∨ s.startTaken) : t.Cleared := by
  cases write_cases h with
  | clear _ ht => exact ht
  | accept _ hrun | reject _ hrun | take _ hrun | keep _ _ hrun => exact absurd hc (not_clearing_of_runsOn hrun)

/-! ### One rule per register -/

/-- Settles O31: a consumed byte is the only case that moves the cursor: to 1 from HDR's 0, by 1 in LEN. -/
theorem cursorCountsConsumedBytes : Obligations.CursorCountsConsumedBytes := by
  intro s t hhdr h
  cases write_cases h with
  | clear hc ht => rw [if_pos hc]; exact ht.1
  | accept b hrun hst hb | reject b hrun hst hb =>
    rw [if_neg (not_clearing_of_runsOn hrun), hb, hhdr hst]; rfl
  | take _ hrun _ hb | keep _ _ hrun hb => rw [if_neg (not_clearing_of_runsOn hrun), hb]; rfl

/-- Settles O32: only the accepted byte 0 writes the two nibbles, and the invariant's DONE row has a valid code. -/
theorem typeAndFlagsWrittenByByteZero : Obligations.TypeAndFlagsWrittenByByteZero := by
  refine ⟨fun s t h => ?_, fun s hs hst => ?_⟩
  · cases write_cases h with
    | clear hc ht =>
      obtain ⟨-, -, htype, hflags, -⟩ := ht
      exact .inr (.inl ⟨hc, htype, hflags⟩)
    | accept b _ hst hb hcode =>
      obtain ⟨hlo, hhi⟩ := (validType_range _).mp hcode
      exact .inr (.inr ⟨b, hst, hb, hlo, hhi, rfl, rfl, rfl⟩)
    | reject _ hrun | take _ hrun | keep _ _ hrun => exact .inl ⟨rfl, rfl, hrun⟩
  · obtain ⟨-, -, -, hvalid⟩ := inField_of_inv hs (.inr hst)
    exact (validType_range _).mp hvalid

/-- Settles O33: only a length byte's rule writes the accumulator. -/
theorem accumulatorWrittenByLengthBytes : Obligations.AccumulatorWrittenByLengthBytes := by
  intro s t h
  cases write_cases h with
  | clear hc ht =>
    obtain ⟨-, hacc, -⟩ := ht
    exact .inr (.inl ⟨hc, hacc⟩)
  | take b _ hst hb => exact .inr (.inr ⟨b, hst, hb, rfl⟩)
  | accept _ hrun | reject _ hrun | keep _ _ hrun => exact .inl ⟨rfl, hrun⟩

/-- A changed, non-zero `ekind` is written by one of the three rules that enter ERR, all from HDR or LEN. -/
theorem enters_err_of_ekind_written {s t : State} (h : step s = .next t) (hne : t.ekind ≠ s.ekind)
    (hkind : t.ekind ≠ .noError) : s.st ≠ .err ∧ t.st = .err := by
  cases step_cases h with
  | reset | start => exact absurd rfl hkind
  | rest | wait | accept | take => exact absurd rfl hne
  | reject _ hst | fifth _ hst => exact ⟨by rw [hst]; decide, rfl⟩
  | ended _ hst => exact ⟨by rcases hst with hst | hst <;> rw [hst] <;> decide, rfl⟩

theorem ErrKind.code_ne_zero_iff (k : ErrKind) : k.code ≠ 0#2 ↔ k ≠ .noError := by cases k <;> decide

/-- Settles O34: the rules that write `ekind` enter ERR, and the invariant has an error kind in ERR alone. -/
theorem errorKindWrittenOnErrorEntry : Obligations.ErrorKindWrittenOnErrorEntry := by
  refine ⟨fun s t => enters_err_of_ekind_written, fun s t h hc => ?_, fun s hs => ?_, rfl, rfl, rfl, rfl⟩
  · obtain ⟨-, -, -, -, hkind, -⟩ := step_cleared h hc
    exact hkind
  · rw [ErrKind.code_ne_zero_iff]
    refine ⟨fun hk => ?_, fun hst => ?_⟩
    · by_contra hst
      exact hk (noError_of_inv hs hst).1
    · exact ekind_ne_noError_of_errorForm (errorForm_of_inv hs hst)

/-- Settles O35: only the rejected byte 0 writes the error value, and the invariant keeps it 0 for every other kind. -/
theorem errorValueWrittenOnRejection : Obligations.ErrorValueWrittenOnRejection := by
  refine ⟨fun s t h => ?_, fun s hs hk => ?_⟩
  · cases write_cases h with
    | clear hc ht =>
      obtain ⟨-, -, -, -, -, hvalue⟩ := ht
      exact .inr (.inl ⟨hc, hvalue⟩)
    | reject b _ hst hb hcode => exact .inr (.inr ⟨b, hst, hb, hcode, rfl, rfl, rfl⟩)
    | accept _ hrun | take _ hrun | keep _ _ hrun => exact .inl ⟨rfl, hrun⟩
  · by_cases hst : s.st = .err
    · exact evalue_of_errorForm (errorForm_of_inv hs hst) hk
    · exact (noError_of_inv hs hst).2

/-- Settles O38: `exec_host` says it of every meaning. -/
theorem instructionsKeepHostInputs : Obligations.InstructionsKeepHostInputs := fun _ _ _ h => exec_host h

/-! ### Outputs -/

@[simp] theorem outputs_busy (s : State) (rst : Bool) :
    (s.outputs rst).busy = (decide (s.st = .hdr) || decide (s.st = .len)) := busy_eq s

@[simp] theorem outputs_done (s : State) (rst : Bool) : (s.outputs rst).done = decide (s.st = .done) := rfl

@[simp] theorem outputs_error (s : State) (rst : Bool) : (s.outputs rst).error = decide (s.st = .err) := rfl

/-- The error outputs show the error registers in ERR. -/
theorem outputs_error_ports {s : State} (rst : Bool) (h : s.st = .err) :
    (s.outputs rst).errKind = s.ekind.code ∧ (s.outputs rst).errValue = s.evalue :=
  ⟨if_pos h, if_pos h⟩

/-- The error outputs are 0 outside ERR. -/
theorem outputs_error_ports_zero {s : State} (rst : Bool) (h : s.st ≠ .err) :
    (s.outputs rst).errKind = 0#2 ∧ (s.outputs rst).errValue = 0#4 :=
  ⟨if_neg h, if_neg h⟩

/-- The header outputs show the decoded header in DONE. -/
theorem outputs_header_ports {s : State} (rst : Bool) (h : s.st = .done) :
    (s.outputs rst).hdrType = s.ptype ∧ (s.outputs rst).hdrFlags = s.pflags ∧ (s.outputs rst).hdrRemLen = s.acc :=
  ⟨if_pos h, if_pos h, if_pos h⟩

/-- The header outputs are 0 outside DONE. -/
theorem outputs_header_ports_zero {s : State} (rst : Bool) (h : s.st ≠ .done) :
    (s.outputs rst).hdrType = 0#4 ∧ (s.outputs rst).hdrFlags = 0#4 ∧ (s.outputs rst).hdrRemLen = 0#32 :=
  ⟨if_neg h, if_neg h, if_neg h⟩

/-- Settles O10: the reset state is a literal; `rst` only forces `in_ready` to the 0 it has in IDLE anyway. -/
theorem resetStateAndOutputs : Obligations.ResetStateAndOutputs := by
  refine ⟨rfl, rfl, rfl, rfl, rfl, rfl, rfl, fun rst => ?_⟩
  cases rst <;> rfl

/-- Settles O40, port by port. -/
theorem outputPorts : Obligations.OutputPorts := fun s rst =>
  ⟨rfl, outputs_busy s rst, rfl, rfl, rfl, outputs_error_ports rst, outputs_error_ports_zero rst,
    outputs_header_ports rst, outputs_header_ports_zero rst⟩

/-- Settles O41: each status bit names control states of its own, and IDLE is the one that none names. -/
theorem statusBitsExclusive : Obligations.StatusBitsExclusive := by
  intro s rst
  simp only [outputs_busy, outputs_done, outputs_error]
  cases s.st <;> decide

end Sys2Proof.Machine

/-! The statements on the encoding (spec/30_encoding.md): the round trips of decoder and encoder, the table of R84 as
the decoder of a cycle's command, and where an instruction completes and a step stops. -/

namespace Sys2Proof.Machine

/-! ### Format B0 -/

/-- Byte 0 is the encoding of the row its code selects. -/
theorem encode_decodeB0 (b : Byte) : encode (decodeB0 b) = .b0 b := by
  rw [← byteB0_typeCode_flagsOf b, decodeB0_byteB0]
  rcases nibble_cases (typeCode b) with h | h | h | h | h | h | h | h | h | h | h | h | h | h | h | h <;> rw [h] <;> rfl

/-- The sixteen rows of byte 0 are carried in HDR alone. -/
theorem wellFormed_decodeB0 (b : Byte) (st : CtlState) (pos : Pos) :
    (decodeB0 b).wellFormed st pos = decide (st = .hdr) := by
  unfold decodeB0
  split <;> rfl

theorem decode_b0_iff {st : CtlState} {pos : Pos} {b : Byte} {i : Instr} :
    decode st pos (.b0 b) = .ok i ↔ st = .hdr ∧ decodeB0 b = i := by
  by_cases h : st = .hdr <;> simp [decode, h]

/-! ### Format RLB -/

theorem lengthPos_iff (pos : Pos) : lengthPos pos = true ↔ 1 ≤ pos.toNat ∧ pos.toNat ≤ 4 := by
  simp [lengthPos]

/-- Outside the four length bytes and the fifth the cursor is one that R24 calls unreachable in LEN. -/
theorem pos_unreachable_iff (pos : Pos) :
    pos = 0#3 ∨ pos = 6#3 ∨ pos = 7#3 ↔ pos ≠ 5#3 ∧ lengthPos pos = false := by
  revert pos; decide

/-- At the cursors 1 to 4 the continuation bit selects the row (R77). -/
theorem decode_rlb_lengthPos {pos : Pos} (h : lengthPos pos = true) (b : Byte) :
    decode .len pos (.rlb b) = .ok (if contBit b then .rlCont (chunkOf b) else .rlLast (chunkOf b)) := by
  obtain ⟨hlo, hhi⟩ := (lengthPos_iff pos).mp h
  have hne : pos ≠ 0#3 := by rintro rfl; exact absurd hlo (by decide)
  have hlt : pos.toNat - 1 < Config.rlMaxBytes := by unfold Config.rlMaxBytes; omega
  cases hc : contBit b <;> simp [decode, decodeRlb, hne, hlt, hc]

/-- The row that the continuation bit selects is encoded by the byte. -/
theorem encode_lengthRow (b : Byte) :
    encode (if contBit b then .rlCont (chunkOf b) else .rlLast (chunkOf b)) = .rlb b := by
  have hbyte := byteRlb_contBit_chunkOf b
  cases hc : contBit b <;> rw [hc] at hbyte <;> exact congrArg Encoded.rlb hbyte

/-- At cursor 5 every byte is the fifth. -/
theorem decode_rlb_five (b : Byte) : decode .len 5#3 (.rlb b) = .ok (.rlOver b) := rfl

/-- An RLB byte is decoded in LEN with the cursor at 1 to 5, and nowhere else. -/
theorem place_of_decode_rlb {st : CtlState} {pos : Pos} {b : Byte} {i : Instr}
    (h : decode st pos (.rlb b) = .ok i) : st = .len ∧ (lengthPos pos = true ∨ pos = 5#3) := by
  have hst : st = .len := by
    by_contra hne
    simp [decode, hne] at h
  subst hst
  refine ⟨rfl, ?_⟩
  by_contra hplace
  rw [not_or, Bool.not_eq_true, and_comm, ← pos_unreachable_iff] at hplace
  rcases hplace with rfl | rfl | rfl <;> cases h

/-! ### Format CTL -/

/-- On a composed vector the decoder rejects in one place, by one name. -/
theorem decodeCtl_error_iff {st : CtlState} {pos : Pos} {r s v e : Bool} {d : Byte} {err : DecodeError} :
    decodeCtl st pos (ctlVector r s v e) d = .error err ↔
      err = .noRowForPos ∧ r = false ∧ st = .len ∧ v = true ∧ (pos = 0#3 ∨ pos = 6#3 ∨ pos = 7#3) := by
  rw [decodeCtl_ctlVector, pos_unreachable_iff]
  cases r
  case true => simp
  cases st
  case len =>
    cases v
    · cases e <;> simp
    · by_cases h5 : pos = 5#3
      · simp [h5]
      · cases hl : lengthPos pos <;> simp [h5, eq_comm]
  case hdr => cases v <;> cases e <;> simp
  all_goals cases s <;> simp

/-- The masks and matches of R84's rows, as conditions on the ports. -/
theorem ctlVector_masks (r s v e : Bool) :
    (ctlVector r s v e &&& 0b1000#4 == 0b1000#4) = r ∧
    (ctlVector r s v e &&& 0b1100#4 == 0b0100#4) = (!r && s) ∧
    (ctlVector r s v e &&& 0b1100#4 == 0b0000#4) = (!r && !s) ∧
    (ctlVector r s v e &&& 0b1010#4 == 0b0010#4) = (!r && v) ∧
    (ctlVector r s v e &&& 0b1011#4 == 0b0001#4) = (!r && !v && e) ∧
    (ctlVector r s v e &&& 0b1011#4 == 0b0000#4) = (!r && !v && !e) := by
  revert r s v e; decide

/-- The decoder's row is the table's first row that the state, the cursor and the ports match. -/
theorem firstRow_mnemonic (st : CtlState) (pos : Pos) (r s v e : Bool) (d : Byte) :
    (ctlRows.find? fun row => row.carries st pos (ctlVector r s v e)).map CtlRow.mnemonic =
      (decodeCtl st pos (ctlVector r s v e) d).toOption.map Instr.mnemonic := by
  obtain ⟨hreset, hstart, hnop, hbyte, heoi, hbusy⟩ := ctlVector_masks r s v e
  have hpos : pos.toNat ≤ 7 := Nat.le_of_lt_succ pos.isLt
  simp only [ctlRows, List.find?_cons, CtlRow.carries, hreset, hstart, hnop, hbyte, heoi, hbusy, decodeCtl_ctlVector,
    Nat.zero_le, hpos, decide_true, Bool.and_true]
  cases r
  case true => cases st <;> rfl
  cases st
  case len =>
    cases v
    · cases e <;> simp only [Bool.and_false] <;> rfl
    · rcases pos_cases pos with rfl | rfl | rfl | rfl | rfl | rfl | rfl | rfl <;> rfl
  case hdr => cases v <;> cases e <;> rfl
  all_goals cases s <;> rfl

/-! ### Round trips -/

/-- A place in LEN is the state and what is asked of the cursor. -/
theorem of_place_len {st : CtlState} {cursor : Bool} (h : (decide (st = .len) && cursor) = true) :
    st = .len ∧ cursor = true := by
  simpa using h

/-- Settles O2, row by row: the row's place fixes the state, and in LEN the cursor's range. -/
theorem decodeOfEncode : Obligations.DecodeOfEncode := by
  intro st pos i h
  cases i
  case reset => simp [encode, decode, decodeCtl_ctlVector]
  case start | nopIdle =>
    rcases (resting_iff st).mp h with rfl | rfl | rfl <;> simp [encode, decode, decodeCtl_ctlVector]
  case byteHdr | eoiHdr | eoiLen =>
    obtain rfl := of_decide_eq_true h
    simp [encode, decode, decodeCtl_ctlVector]
  case nopBusy =>
    cases st
    case hdr | len => simp [encode, decode, decodeCtl_ctlVector]
    all_goals cases h
  case byteLen =>
    obtain ⟨rfl, hpos⟩ := of_place_len h
    have h5 : pos ≠ Config.posMax := by rintro rfl; cases hpos
    simp [encode, decode, decodeCtl_ctlVector, h5, hpos]
  case byteOver =>
    obtain ⟨rfl, hpos⟩ := of_place_len h
    obtain rfl := of_decide_eq_true hpos
    simp [encode, decode, decodeCtl_ctlVector]
  case rlOver =>
    obtain ⟨rfl, hpos⟩ := of_place_len h
    obtain rfl := of_decide_eq_true hpos
    exact decode_rlb_five _
  case rlCont | rlLast =>
    obtain ⟨rfl, hpos⟩ := of_place_len h
    rw [encode, decode_rlb_lengthPos hpos, contBit_byteRlb, chunkOf_byteRlb]
    rfl
  all_goals exact decode_b0_iff.mpr ⟨of_decide_eq_true h, decodeB0_byteB0 _ _⟩

/-- Settles O3, format by format. -/
theorem encodeOfDecode : Obligations.EncodeOfDecode := by
  intro st pos w i h
  cases w with
  | b0 b =>
    obtain ⟨hst, rfl⟩ := decode_b0_iff.mp h
    exact ⟨encode_decodeB0 b, by rw [wellFormed_decodeB0, hst]; rfl⟩
  | rlb b =>
    obtain ⟨rfl, hpos | rfl⟩ := place_of_decode_rlb h
    · rw [decode_rlb_lengthPos hpos] at h
      cases h
      exact ⟨encode_lengthRow b, by cases contBit b <;> exact hpos⟩
    · cases h
      exact ⟨rfl, rfl⟩
  | ctl v d => exact ⟨encode_of_decodeCtl h, wellFormed_of_decodeCtl h⟩

/-- Settles O4: the decoder and the table's search name the same row, and the decoder rejects by one name alone. -/
theorem commandIsFirstMatchingRow : Obligations.CommandIsFirstMatchingRow := by
  intro st pos v d
  have hname := firstRow_mnemonic st pos (v.getLsbD 3) (v.getLsbD 2) (v.getLsbD 1) (v.getLsbD 0) d
  rw [ctlVector_bits] at hname
  cases hi : decodeCtl st pos v d with
  | ok i =>
    rw [hi] at hname
    obtain ⟨row, hrow, hmnemonic⟩ := Option.map_eq_some_iff.mp hname
    rw [hrow]
    exact ⟨i, rfl, hmnemonic.symm, encode_of_decodeCtl hi⟩
  | error err =>
    rw [hi] at hname
    rw [Option.map_eq_none_iff.mp hname]
    rw [← ctlVector_bits v, decodeCtl_error_iff] at hi
    obtain ⟨rfl, -⟩ := hi
    rfl

/-! ### Where an instruction completes and a step stops -/

/-- Settles O8: every meaning is its effect, guarded by its row's place. -/
theorem instructionCompletesExactlyWhereCarried : Obligations.InstructionCompletesExactlyWhereCarried := by
  intro i s
  obtain ⟨t, ht⟩ := exec_carried i s
  rw [ht]
  exact ⟨fun h => ⟨t, by rw [h]; rfl⟩, fun h => by rw [h]; rfl⟩

/-- A step completes where the decoder finds a row: what is decoded is carried. -/
theorem step_completes_of_decoded {s : State} {i : Instr}
    (h : decodeCtl s.st s.pos s.inputs.vector s.inputs.inData = .ok i) : ∃ t, step s = .next t := by
  rw [step, h]
  exact (instructionCompletesExactlyWhereCarried i s.advance).1 (wellFormed_of_decodeCtl h)

/-- A step faults where the decoder finds none. -/
theorem step_faults_of_rejected {s : State} {err : DecodeError}
    (h : decodeCtl s.st s.pos s.inputs.vector s.inputs.inData = .error err) : step s = .fault .noRuleForPos := by
  rw [step, h]

/-- Settles O7: a step stops only where the decoder rejects, which is one place. -/
theorem stepStopsOnlyWithoutARow : Obligations.StepStopsOnlyWithoutARow := by
  intro s
  cases hi : decodeCtl s.st s.pos s.inputs.vector s.inputs.inData with
  | ok i =>
    obtain ⟨t, ht⟩ := step_completes_of_decoded hi
    refine ⟨fun r => by rw [ht]; nofun, by rw [ht]; nofun, fun hplace => ?_⟩
    rw [Cycle.vector, decodeCtl_error_iff.mpr ⟨rfl, hplace⟩] at hi
    cases hi
  | error err =>
    have hstop := step_faults_of_rejected hi
    obtain ⟨-, hplace⟩ := decodeCtl_error_iff.mp hi
    exact ⟨fun r => by rw [hstop]; nofun, fun _ => hplace, fun _ => hstop⟩

/-! ### Words written out -/

/-- Settles O1: the words are literals, and the decoder computes. -/
theorem writtenOutWordsDecode : Obligations.WrittenOutWordsDecode :=
  ⟨rfl, rfl, rfl, rfl, rfl, rfl, rfl, rfl, rfl, rfl, rfl, rfl, rfl, rfl⟩

end Sys2Proof.Machine

/-! The statements on the packet type (spec/40_packet_type.md): the resolver as a bijection on the codes 1 to 14, and the
template of which each code's rule is a case. -/

namespace Sys2Proof.Machine

/-! ### The resolver -/

/-- A packet type has the wire code of R117, and that code names no other type. -/
theorem packetOf_packetCode (t : PacketType) : packetOf (packetCode t) = some t := by cases t <;> rfl

/-- The codes that name a packet type are those that the hardware's test accepts. -/
theorem packetOf_isSome (c : Nibble) : (packetOf c).isSome = validType c := by revert c; decide

theorem resolvePacketType_packetCode (t : PacketType) : resolvePacketType (packetCode t) = .ok t := by
  rw [resolvePacketType, packetOf_packetCode]

theorem resolvePacketType_of_valid {c : Nibble} (h : validType c = true) : ∃ t, resolvePacketType c = .ok t := by
  obtain ⟨t, ht⟩ := Option.isSome_iff_exists.mp ((packetOf_isSome c).trans h)
  exact ⟨t, by rw [resolvePacketType, ht]⟩

theorem resolvePacketType_of_invalid {c : Nibble} (h : validType c = false) :
    resolvePacketType c = .err (.invalidPacketType c) := by
  have hnone : packetOf c = none := by rw [← Option.not_isSome_iff_eq_none, packetOf_isSome, h]; decide
  rw [resolvePacketType, hnone]

theorem validType_eq_false_of_reserved {c : Nibble} (h : c = 0#4 ∨ c = 15#4) : validType c = false := by
  rcases h with rfl | rfl <;> rfl

/-- Settles O42: wire codes and packet types are inverse to each other where `validType` holds. -/
theorem resolverIsABijection : Obligations.ResolverIsABijection := by
  refine ⟨fun c hc => resolvePacketType_of_invalid (validType_eq_false_of_reserved hc), fun c h0 h15 => ?_,
    resolvePacketType_packetCode, fun c => ⟨resolvePacketType_of_valid, fun ⟨_, ht⟩ => (resolvePacketType_ok ht).2⟩⟩
  obtain ⟨t, ht⟩ := resolvePacketType_of_valid ((validType_iff c).mpr ⟨h0, h15⟩)
  exact ⟨t, ht, (resolvePacketType_ok ht).1⟩

/-! ### The parser by what byte 0 and the length field are (spec/42_fixed_header.md R160) -/

theorem parseFixedHeader_of_type_err {b : Byte} {e : ParseError} (h : resolvePacketType (typeCode b) = .err e)
    (rest : Frame) : parseFixedHeader (b :: rest) = .err e := by
  simp [parseFixedHeader, memRead, h]

theorem parseFixedHeader_of_length_err {b : Byte} {t : PacketType} {rest : Frame} {e : ParseError}
    (ht : resolvePacketType (typeCode b) = .ok t) (hlen : decodeRemainingLength (b :: rest) 1 = .err e) :
    parseFixedHeader (b :: rest) = .err e := by
  simp [parseFixedHeader, memRead, ht, hlen]

theorem parseFixedHeader_of_length_ok {b : Byte} {t : PacketType} {rest : Frame} {v : Word32} {n : Nat}
    (ht : resolvePacketType (typeCode b) = .ok t) (hlen : decodeRemainingLength (b :: rest) 1 = .ok (v, n)) :
    parseFixedHeader (b :: rest) = .ok (⟨t, flagsOf b, v⟩, suffixFrom (b :: rest) (1 + n)) := by
  simp [parseFixedHeader, memRead, ht, hlen]

/-! ### The rows of byte 0 -/

/-- The row that byte 0 decodes to is the one that the hardware runs: both tables are indexed by the same four bits. -/
theorem exec_decodeB0 (b : Byte) (s : State) : exec (decodeB0 b) s = runByte0 b s := by
  unfold decodeB0 runByte0
  generalize b.getLsbD 7 = b7, b.getLsbD 6 = b6, b.getLsbD 5 = b5, b.getLsbD 4 = b4
  cases b7 <;> cases b6 <;> cases b5 <;> cases b4 <;> rfl

theorem exec_decodeB0_of_valid {code : Nibble} (hcode : validType code = true) (flags : Nibble) {s : State}
    (hst : s.st = .hdr) : exec (decodeB0 (byteB0 code flags)) s = .next (s.acceptByte0 code flags) := by
  simp [exec_decodeB0, runByte0_eq, hst, hcode]

theorem exec_decodeB0_of_invalid {code : Nibble} (hcode : validType code = false) (flags : Nibble) {s : State}
    (hst : s.st = .hdr) : exec (decodeB0 (byteB0 code flags)) s = .next (s.rejectByte0 code) := by
  simp [exec_decodeB0, runByte0_eq, hst, hcode]

/-! ### The template of a code's rule -/

/-- A code that resolves to `t` and selects `row` has the rule of a valid code. -/
theorem validCodeRule_of_resolved {row : Nibble → Instr} {code : Nibble} {t : PacketType}
    (hres : resolvePacketType code = .ok t) (hrow : ∀ flags, decodeB0 (byteB0 code flags) = row flags) :
    ValidCodeRule row code t := by
  obtain ⟨hcode, hvalid⟩ := resolvePacketType_ok hres
  refine ⟨hres, hcode, fun flags => ⟨fun pos => decode_b0_iff.mpr ⟨rfl, hrow flags⟩, fun rest => ?_, fun s hst => ?_⟩⟩
  · have htype : resolvePacketType (typeCode (byteB0 code flags)) = .ok t := by rw [typeCode_byteB0, hres]
    cases hlen : decodeRemainingLength (byteB0 code flags :: rest) 1 with
    | err e => exact parseFixedHeader_of_length_err htype hlen
    | ok field =>
      obtain ⟨v, n⟩ := field
      rw [parseFixedHeader_of_length_ok htype hlen, flagsOf_byteB0]
  · rw [← hrow]
    exact exec_decodeB0_of_valid hvalid flags hst

/-- A reserved code that selects `row` has the rule of a reserved code. -/
theorem reservedCodeRule_of_reserved {row : Nibble → Instr} {code : Nibble} (hcode : code = 0#4 ∨ code = 15#4)
    (hrow : ∀ flags, decodeB0 (byteB0 code flags) = row flags) : ReservedCodeRule row code := by
  have hinvalid := validType_eq_false_of_reserved hcode
  have hres := resolvePacketType_of_invalid hinvalid
  refine ⟨hres, fun flags => ⟨fun pos => decode_b0_iff.mpr ⟨rfl, hrow flags⟩, fun rest => ?_, fun s hst => ?_⟩⟩
  · exact parseFixedHeader_of_type_err (by rw [typeCode_byteB0, hres]) rest
  · rw [← hrow]
    exact exec_decodeB0_of_invalid hinvalid flags hst

/-- Settles O19: both reserved codes are cases of the template. -/
theorem reservedCodesRejected : Obligations.ReservedCodesRejected :=
  ⟨reservedCodeRule_of_reserved (.inl rfl) (decodeB0_byteB0 0#4),
    reservedCodeRule_of_reserved (.inr rfl) (decodeB0_byteB0 15#4)⟩

/-- Settles O20: the resolver's table and the decoder's table agree on each code. -/
theorem codesOneToThreeAccepted : Obligations.CodesOneToThreeAccepted :=
  ⟨validCodeRule_of_resolved rfl (decodeB0_byteB0 1#4), validCodeRule_of_resolved rfl (decodeB0_byteB0 2#4),
    validCodeRule_of_resolved rfl (decodeB0_byteB0 3#4)⟩

/-- Settles O21, as `codesOneToThreeAccepted` does for codes 1 to 3. -/
theorem codesFourToFourteenAccepted : Obligations.CodesFourToFourteenAccepted :=
  ⟨validCodeRule_of_resolved rfl (decodeB0_byteB0 4#4), validCodeRule_of_resolved rfl (decodeB0_byteB0 5#4),
    validCodeRule_of_resolved rfl (decodeB0_byteB0 6#4), validCodeRule_of_resolved rfl (decodeB0_byteB0 7#4),
    validCodeRule_of_resolved rfl (decodeB0_byteB0 8#4), validCodeRule_of_resolved rfl (decodeB0_byteB0 9#4),
    validCodeRule_of_resolved rfl (decodeB0_byteB0 10#4), validCodeRule_of_resolved rfl (decodeB0_byteB0 11#4),
    validCodeRule_of_resolved rfl (decodeB0_byteB0 12#4), validCodeRule_of_resolved rfl (decodeB0_byteB0 13#4),
    validCodeRule_of_resolved rfl (decodeB0_byteB0 14#4)⟩

end Sys2Proof.Machine

/-! The statements on the remaining length (spec/41_remaining_length.md): the decoder's results, read off its loop at
iteration 0, the minimal encoding, and the hardware's length rows. -/

namespace Sys2Proof.Machine

/-! ### The decoder's three results -/

/-- The decoder is its loop at iteration 0, and on success the value is the sum of the chunks (R133, R139). -/
theorem decodeRemainingLength_ok_iff (inp : Frame) (off : Nat) (v : Word32) (n : Nat) :
    decodeRemainingLength inp off = .ok (v, n) ↔
      (1 ≤ n ∧ n ≤ 4 ∧ ((inp.drop off).take n).length = n ∧
        completeField ((inp.drop off).take n) = true ∧ v.toNat = chunkSum 0 ((inp.drop off).take n)) := by
  rw [decodeRemainingLength, lengthLoop_ok inp off Config.rlMaxBytes 0 0#32 v n rfl (by decide)]
  simp only [Nat.zero_add, Nat.add_zero, BitVec.toNat_ofNat, Nat.zero_mod]
  constructor
  · rintro ⟨m, rfl, hlo, hhi, hlen, hfield, hsum, -⟩
    exact ⟨hlo, hhi, hlen, hfield, hsum⟩
  · rintro ⟨hlo, hhi, hlen, hfield, hsum⟩
    have hbound := (chunkSum_lt ((inp.drop off).take n) 0).1
    rw [hlen, Nat.zero_add] at hbound
    exact ⟨n, rfl, hlo, hhi, hlen, hfield, hsum, hsum ▸ hbound⟩

/-- The decoder finds a malformed length exactly after four continuation bytes with a fifth byte behind them (R137). -/
theorem decodeRemainingLength_malformed_iff (inp : Frame) (off : Nat) :
    decodeRemainingLength inp off = .err .malformedVariableLength ↔
      off + 4 < inp.length ∧ ∀ i, i < 4 → ∃ b, memRead inp (off + i) = some b ∧ contBit b = true := by
  rw [decodeRemainingLength, lengthLoop_malformed, avail, decide_eq_true_iff]
  rfl

/-- Settles O43: the loop's characterisation, at iteration 0. -/
theorem decodedLengthIsChunkSum : Obligations.DecodedLengthIsChunkSum := decodeRemainingLength_ok_iff

/-- Settles O45: the value is the sum of `n` chunks, and `n` is at most 4. -/
theorem decodedLengthBound : Obligations.DecodedLengthBound := by
  intro inp off v n h
  obtain ⟨-, hhi, hlen, -, hsum⟩ := (decodeRemainingLength_ok_iff inp off v n).mp h
  have hbound := (chunkSum_lt ((inp.drop off).take n) 0).1
  rw [← hsum, hlen, Nat.zero_add] at hbound
  have hmax : v.toNat < 128 ^ 4 := hbound.trans_le (Nat.pow_le_pow_right (by decide) hhi)
  exact ⟨hbound, Nat.le_of_lt_succ hmax, topBits_zero v hmax⟩

/-- Settles O48: the loop from iteration 0 meets the end at iteration `k`. -/
theorem endBeforeTerminator : Obligations.EndBeforeTerminator := fun inp off k hk hend hcont =>
  lengthLoop_end inp off Config.rlMaxBytes 0 k 0#32 k.zero_le (by simpa using hk) hend (fun i _ => hcont i)

/-- Settles O47: the end is met at iteration 4, where a fifth byte is malformed. -/
theorem fourContinuationBytes : Obligations.FourContinuationBytes := by
  intro inp off hcont
  refine ⟨fun hend => endBeforeTerminator inp off 4 le_rfl ?_ hcont,
    fun hfifth => (decodeRemainingLength_malformed_iff inp off).mpr ⟨hfifth, hcont⟩⟩
  simp [avail, hend]

/-! ### The bytes after the field (R143) -/

/-- Frames that agree on the `n` bytes at `off` have the same byte at each of those offsets. -/
theorem memRead_eq_of_take_drop_eq {inp inp' : Frame} {off n i : Nat}
    (h : (inp'.drop off).take n = (inp.drop off).take n) (hi : i < n) :
    memRead inp' (off + i) = memRead inp (off + i) := by
  have hget := congrArg (·[i]?) h
  simpa [memRead, List.getElem?_take_of_lt hi] using hget

/-- Settles O44: each result asks of a frame the field's bytes, and of what follows a fifth byte's existence at most. -/
theorem decoderStopsAtTheField : Obligations.DecoderStopsAtTheField := by
  intro inp inp' off
  constructor
  · intro v n h hfield
    rw [decodeRemainingLength_ok_iff] at h ⊢
    rwa [hfield]
  · intro h hfour hfifth
    obtain ⟨-, hcont⟩ := (decodeRemainingLength_malformed_iff inp off).mp h
    refine (decodeRemainingLength_malformed_iff inp' off).mpr ⟨hfifth, fun i hi => ?_⟩
    rw [memRead_eq_of_take_drop_eq hfour hi]
    exact hcont i hi

/-! ### The minimal encoding (R142) -/

/-- In a complete field the continuation bit says whether a byte follows (spec/30_encoding.md R73). -/
theorem contBit_getElem_of_completeField {bs : List Byte} (h : completeField bs = true) (i : Nat) (hi : i < bs.length) :
    contBit bs[i] = decide (i + 1 < bs.length) := by
  induction bs generalizing i with
  | nil => cases h
  | cons b bs ih =>
    cases bs with
    | nil => simpa [completeField] using h
    | cons c cs =>
      rw [completeField_cons_cons, Bool.and_eq_true] at h
      obtain ⟨hb, hrest⟩ := h
      cases i with
      | zero => simpa using hb
      | succ i => simpa using ih hrest i (Nat.lt_of_succ_lt_succ hi)

theorem length_minEncWithin_le (k v : Nat) : (minEncWithin k v).length ≤ k := by
  fun_induction minEncWithin k v with
  | case1 => rfl
  | case2 k v _ => simp
  | case3 k v _ ih => simpa using ih

theorem minEncWithin_succ_length_pos (k v : Nat) : 1 ≤ (minEncWithin (k + 1) v).length := by
  rw [minEncWithin]
  split <;> simp

/-- The encoding has as many bytes as the value needs, where its byte limit leaves room for them. -/
theorem lt_pow_length_minEncWithin {k v : Nat} (hv : v < 128 ^ k) : v < 128 ^ (minEncWithin k v).length := by
  fun_induction minEncWithin k v with
  | case1 => exact hv
  | case2 k v hsmall => simpa using hsmall
  | case3 k v _ ih =>
    rw [pow_succ] at hv
    rw [List.length_cons, pow_succ]
    exact (Nat.div_lt_iff_lt_mul (by decide)).mp (ih ((Nat.div_lt_iff_lt_mul (by decide)).mpr hv))

/-- No number of bytes below the encoding's holds the value. -/
theorem length_minEncWithin_le_of_lt_pow {k v j : Nat} (hj : 1 ≤ j) (hv : v < 128 ^ j) :
    (minEncWithin k v).length ≤ j := by
  fun_induction minEncWithin k v generalizing j with
  | case1 => exact j.zero_le
  | case2 k v _ => exact hj
  | case3 k v hlarge ih =>
    obtain ⟨j, rfl⟩ := Nat.exists_eq_add_of_le' hj
    have hj' : 1 ≤ j := by
      by_contra hzero
      obtain rfl : j = 0 := by omega
      exact hlarge hv
    rw [pow_succ] at hv
    exact Nat.succ_le_succ (ih hj' ((Nat.div_lt_iff_lt_mul (by decide)).mpr hv))

/-- Byte `i` carries the value's 7-bit group `i`. -/
theorem chunkOf_getElem_minEncWithin (k v i : Nat) (hi : i < (minEncWithin k v).length) :
    (chunkOf (minEncWithin k v)[i]).toNat = (v >>> (7 * i)) % 128 := by
  fun_induction minEncWithin k v generalizing i with
  | case1 => cases hi
  | case2 k v _ =>
    obtain rfl : i = 0 := by simpa using hi
    simp
  | case3 k v _ ih =>
    cases i with
    | zero => simp
    | succ i =>
      have hshift : v >>> (7 * (i + 1)) = (v / 128) >>> (7 * i) := by
        rw [Nat.mul_succ, Nat.add_comm, Nat.shiftRight_add, Nat.shiftRight_eq_div_pow v 7]
      rw [hshift]
      exact ih i (Nat.lt_of_succ_lt_succ hi)

/-- The encoding of a value that its byte limit can hold is a complete field. -/
theorem completeField_minEncWithin {k v : Nat} (hv : v < 128 ^ (k + 1)) :
    completeField (minEncWithin (k + 1) v) = true := by
  induction k generalizing v with
  | zero => simp [minEncWithin, completeField, show v < 128 from hv]
  | succ k ih =>
    rw [minEncWithin]
    split
    · simp [completeField]
    · rw [pow_succ] at hv
      have hrest := ih ((Nat.div_lt_iff_lt_mul (by decide)).mpr hv)
      obtain ⟨c, cs, hcons⟩ := List.exists_cons_of_length_pos (minEncWithin_succ_length_pos k (v / 128))
      rw [hcons] at hrest ⊢
      rw [completeField_cons_cons, contBit_byteRlb, hrest]
      rfl

/-- The chunks of the encoding sum to the value, scaled by the index at which the field starts (R133). -/
theorem chunkSum_minEncWithin {k v : Nat} (hv : v < 128 ^ k) (i : Nat) :
    chunkSum i (minEncWithin k v) = v * 128 ^ i := by
  fun_induction minEncWithin k v generalizing i with
  | case1 => simp [chunkSum, Nat.lt_one_iff.mp hv]
  | case2 k v hsmall => simp [chunkSum, Nat.mod_eq_of_lt hsmall]
  | case3 k v _ ih =>
    rw [pow_succ] at hv
    rw [chunkSum, ih ((Nat.div_lt_iff_lt_mul (by decide)).mpr hv), chunkOf_byteRlb, BitVec.toNat_ofNat]
    calc v % 128 * 128 ^ i + v / 128 * 128 ^ (i + 1)
        = (v % 128 + 128 * (v / 128)) * 128 ^ i := by ring
      _ = v * 128 ^ i := by rw [Nat.mod_add_div]

/-- Decoding a frame that holds `MinEnc(v)` at `off` gives `v` back, whatever follows. -/
theorem decodeRemainingLength_minEnc {v : Nat} (hv : v < 128 ^ 4) {inp : Frame} {off : Nat}
    (h : (inp.drop off).take (minEnc v).length = minEnc v) :
    decodeRemainingLength inp off = .ok (BitVec.ofNat 32 v, (minEnc v).length) := by
  rw [decodeRemainingLength_ok_iff, h]
  refine ⟨minEncWithin_succ_length_pos 3 v, length_minEncWithin_le 4 v, rfl, completeField_minEncWithin hv, ?_⟩
  rw [minEnc, chunkSum_minEncWithin hv, BitVec.toNat_ofNat, pow_zero, Nat.mul_one]
  exact Nat.mod_eq_of_lt (hv.trans (by decide))

/-- Settles O46: the encoding's length, its bytes, and the decoder's sum over them. -/
theorem minimalEncodingRoundTrip : Obligations.MinimalEncodingRoundTrip := by
  intro v hmax
  have hv : v < 128 ^ 4 := Nat.lt_succ_of_le hmax
  exact ⟨minEncWithin_succ_length_pos 3 v, lt_pow_length_minEncWithin hv,
    fun _ hk hvk => length_minEncWithin_le_of_lt_pow hk hvk,
    fun i hi => ⟨chunkOf_getElem_minEncWithin 4 v i hi,
      contBit_getElem_of_completeField (completeField_minEncWithin hv) i hi⟩,
    fun _ _ h => decodeRemainingLength_minEnc hv h⟩

/-! ### The hardware's length rows (R134, R135, R144) -/

/-- The row that one of the first four length bytes decodes to is the one that the hardware runs. -/
theorem exec_of_decodeRlb {k : Nat} (hk : k < 4) {d : Byte} {i : Instr} (h : decodeRlb k d = .ok i) (s : State) :
    exec i s = runLengthByte d s := by
  rw [decodeRlb, if_pos hk] at h
  rw [runLengthByte]
  cases hc : contBit d <;> rw [hc] at h <;> cases h <;> rfl

/-- Settles O9: a byte command runs the row that its byte decodes to. -/
theorem byteCommandRunsItsByteRow : Obligations.ByteCommandRunsItsByteRow := by
  intro s st e d
  refine ⟨fun _ => (exec_decodeB0 d s).symm, fun _ i hlo hhi h => (exec_of_decodeRlb (by omega) h s).symm,
    fun _ i _ h => ?_⟩
  cases h
  rfl

/-- Settles O24: both rows are carried there, and take the byte with their continuation bit. -/
theorem lengthRowsWriteAccumulator : Obligations.LengthRowsWriteAccumulator := by
  intro s chunk hst hlo hhi
  have hcarried : s.inLengthField = true := (inLengthField_iff s).mpr ⟨hst, hlo, hhi⟩
  constructor
  · exact congrArg (whenCarried · (s.takeLengthByte true chunk)) hcarried
  · exact congrArg (whenCarried · (s.takeLengthByte false chunk)) hcarried

end Sys2Proof.Machine

/-! The statements on the parser (spec/42_fixed_header.md): its results are read off byte 0 and the length decoder's
result, and depend on the frame's first five bytes and on whether a sixth exists. -/

namespace Sys2Proof.Machine

/-! ### The parser's results (R160) -/

/-- The parser succeeds exactly where the resolver and the length decoder do, with their results and the suffix after
the field. -/
theorem parseFixedHeader_ok_iff {inp : Frame} {h : FixedHeader} {r : Frame} :
    parseFixedHeader inp = .ok (h, r) ↔
      ∃ b n, memRead inp 0 = some b ∧ resolvePacketType (typeCode b) = .ok h.packetType ∧
        h.packetFlags = flagsOf b ∧ decodeRemainingLength inp 1 = .ok (h.remainingLength, n) ∧
        r = inp.drop (1 + n) := by
  obtain ⟨t, flags, v⟩ := h
  constructor
  · intro hp
    unfold parseFixedHeader at hp
    split at hp
    · cases hp
    next b hb =>
      split at hp
      · cases hp
      next t' ht =>
        split at hp
        · cases hp
        next v' n hlen =>
          cases hp
          exact ⟨b, n, hb, ht, rfl, hlen, rfl⟩
  · rintro ⟨b, n, hb, ht, rfl, hlen, rfl⟩
    simp [parseFixedHeader, hb, ht, hlen, suffixFrom]

/-- The parser's error is the end of an empty frame, or else the resolver's, or else the length decoder's. -/
theorem parseFixedHeader_err_iff {inp : Frame} {e : ParseError} :
    parseFixedHeader inp = .err e ↔
      (memRead inp 0 = none ∧ e = .unexpectedEndOfInput) ∨
      ∃ b, memRead inp 0 = some b ∧
        (resolvePacketType (typeCode b) = .err e ∨
          ∃ t, resolvePacketType (typeCode b) = .ok t ∧ decodeRemainingLength inp 1 = .err e) := by
  unfold parseFixedHeader
  cases hb : memRead inp 0 with
  | none => simp [eq_comm]
  | some b =>
    cases ht : resolvePacketType (typeCode b) with
    | err e' => simp [ht]
    | ok t =>
      cases hlen : decodeRemainingLength inp 1 with
      | err e' => simp [ht]
      | ok field => simp [ht]

/-- The length decoder's errors are the two length errors. -/
theorem decodeRemainingLength_errors {inp : Frame} {off : Nat} {e : ParseError}
    (h : decodeRemainingLength inp off = .err e) : e = .unexpectedEndOfInput ∨ e = .malformedVariableLength :=
  lengthLoop_errors inp off Config.rlMaxBytes 0 0#32 e h

/-- Every packet type's wire code is one of R117's. -/
theorem packetCode_range (t : PacketType) : 1 ≤ (packetCode t).toNat ∧ (packetCode t).toNat ≤ 14 := by
  obtain ⟨-, hvalid⟩ := resolvePacketType_ok (resolvePacketType_packetCode t)
  exact (validType_range (packetCode t)).mp hvalid

/-- Settles O49, by the parser's equations for a reserved code, a length error and a length. -/
theorem parserChecksInOrder : Obligations.ParserChecksInOrder := by
  refine ⟨rfl, fun b rest => ⟨fun hreserved => ?_, fun h0 h15 => ?_⟩⟩
  · exact parseFixedHeader_of_type_err (resolvePacketType_of_invalid (validType_eq_false_of_reserved hreserved)) rest
  · obtain ⟨t, ht⟩ := resolvePacketType_of_valid ((validType_iff (typeCode b)).mpr ⟨h0, h15⟩)
    obtain ⟨hcode, -⟩ := resolvePacketType_ok ht
    exact ⟨fun e hlen => ⟨parseFixedHeader_of_length_err ht hlen, decodeRemainingLength_errors hlen⟩,
      fun v n hlen => ⟨t, hcode, parseFixedHeader_of_length_ok ht hlen⟩⟩

/-- Settles O52: the code is a resolved one, and the length is within the decoder's bound. -/
theorem headerFieldsInRange : Obligations.HeaderFieldsInRange := by
  intro inp h r hp
  obtain ⟨b, n, hb, ht, hflags, hlen, -⟩ := parseFixedHeader_ok_iff.mp hp
  obtain ⟨hcode, -⟩ := resolvePacketType_ok ht
  obtain ⟨hlo, hhi⟩ := packetCode_range h.packetType
  obtain ⟨-, hmax, -⟩ := decodedLengthBound inp 1 h.remainingLength n hlen
  exact ⟨hlo, hhi, hmax, b, inp.drop 1, memRead_drop hb, hcode, hflags⟩

/-! ### What the results depend on (R167, R168) -/

/-- The decoder's results other than the end of input ask of a frame its four bytes at `off`, as many as there are, and
of what follows a fifth byte's existence at most; what follows a shorter frame's end does not matter. -/
theorem decodeRemainingLength_of_prefix {inp inp' : Frame} {off : Nat} {res : Parsed (Word32 × Nat)}
    (hfour : (inp.drop off).take 4 <+: inp'.drop off) (hfifth : off + 4 < inp.length → off + 4 < inp'.length)
    (h : decodeRemainingLength inp off = res) (hres : res ≠ .err .unexpectedEndOfInput) :
    decodeRemainingLength inp' off = res := by
  obtain ⟨hok, hmalformed⟩ := decoderStopsAtTheField inp inp' off
  have hfield {n : Nat} (hn : n ≤ 4) (hlen : ((inp.drop off).take n).length = n) :
      (inp'.drop off).take n = (inp.drop off).take n := by
    have hpre : (inp.drop off).take n <+: inp'.drop off := (List.take_prefix_take_left hn).trans hfour
    rw [List.prefix_iff_eq_take, hlen] at hpre
    exact hpre.symm
  subst h
  cases hdec : decodeRemainingLength inp off with
  | ok field =>
    obtain ⟨v, n⟩ := field
    obtain ⟨-, hn, hlen, -⟩ := (decodeRemainingLength_ok_iff inp off v n).mp hdec
    exact hok v n hdec (hfield hn hlen)
  | err e =>
    rcases decodeRemainingLength_errors hdec with rfl | rfl
    · exact absurd hdec hres
    · obtain ⟨hlt, -⟩ := (decodeRemainingLength_malformed_iff inp off).mp hdec
      exact hmalformed hdec (hfield le_rfl (by rw [List.length_take, List.length_drop]; omega)) (hfifth hlt)

/-- `inp'` starts with the first five bytes of `inp`, or with all of a shorter `inp`, and has a sixth byte if `inp` has
one. -/
def KeepsFiveBytes (inp inp' : Frame) : Prop :=
  inp.take 5 <+: inp' ∧ (5 < inp.length → 5 < inp'.length)

theorem keepsFiveBytes_append (inp s : Frame) : KeepsFiveBytes inp (inp ++ s) :=
  ⟨(List.take_prefix 5 inp).trans (List.prefix_append inp s), fun h => by rw [List.length_append]; omega⟩

theorem keepsFiveBytes_of_take_eq {inp inp' : Frame} (hfive : inp.take 5 = inp'.take 5)
    (hsixth : 5 < inp.length → 5 < inp'.length) : KeepsFiveBytes inp inp' :=
  ⟨hfive ▸ List.take_prefix 5 inp', hsixth⟩

namespace KeepsFiveBytes

variable {inp inp' : Frame} (hkeep : KeepsFiveBytes inp inp')
include hkeep

theorem memRead_zero {b : Byte} (hb : memRead inp 0 = some b) : memRead inp' 0 = some b := by
  obtain ⟨⟨s, rfl⟩, -⟩ := hkeep
  cases inp with
  | nil => cases hb
  | cons c rest => exact hb

theorem decodeRemainingLength_eq {res : Parsed (Word32 × Nat)} (h : decodeRemainingLength inp 1 = res)
    (hres : res ≠ .err .unexpectedEndOfInput) : decodeRemainingLength inp' 1 = res := by
  obtain ⟨hfive, hsixth⟩ := hkeep
  have hfour := hfive.drop 1
  rw [List.drop_take] at hfour
  exact decodeRemainingLength_of_prefix hfour (by omega) h hres

/-- A success stays, with a remainder that starts at the same offset. -/
theorem parseFixedHeader_ok {h : FixedHeader} {r : Frame} (hp : parseFixedHeader inp = .ok (h, r)) :
    ∃ n, 2 ≤ n ∧ n ≤ 5 ∧ n ≤ inp.length ∧ r = inp.drop n ∧ parseFixedHeader inp' = .ok (h, inp'.drop n) := by
  obtain ⟨b, n, hb, ht, hflags, hlen, hr⟩ := parseFixedHeader_ok_iff.mp hp
  obtain ⟨hlo, hhi, hbytes, -⟩ := (decodeRemainingLength_ok_iff inp 1 h.remainingLength n).mp hlen
  have hlen' := hkeep.decodeRemainingLength_eq hlen (by simp)
  refine ⟨1 + n, by omega, by omega, ?_, hr,
    parseFixedHeader_ok_iff.mpr ⟨b, n, hkeep.memRead_zero hb, ht, hflags, hlen', rfl⟩⟩
  rw [List.length_take, List.length_drop] at hbytes
  omega

/-- An error other than the end of input stays. -/
theorem parseFixedHeader_err {e : ParseError} (hp : parseFixedHeader inp = .err e) (he : e ≠ .unexpectedEndOfInput) :
    parseFixedHeader inp' = .err e := by
  rw [parseFixedHeader_err_iff] at hp ⊢
  rcases hp with ⟨-, heoi⟩ | ⟨b, hb, htype | ⟨t, ht, hlen⟩⟩
  · exact absurd heoi he
  · exact .inr ⟨b, hkeep.memRead_zero hb, .inl htype⟩
  · exact .inr ⟨b, hkeep.memRead_zero hb, .inr ⟨t, ht, hkeep.decodeRemainingLength_eq hlen (by simpa using he)⟩⟩

end KeepsFiveBytes

/-- Settles O50: appending keeps the first five bytes, and the remainder's offset is within the frame. -/
theorem parserResultIsPrefixStable : Obligations.ParserResultIsPrefixStable := by
  intro inp s
  have hkeep := keepsFiveBytes_append inp s
  refine ⟨fun h r hp => ?_, fun e => hkeep.parseFixedHeader_err⟩
  obtain ⟨n, -, -, hn, rfl, hp'⟩ := hkeep.parseFixedHeader_ok hp
  rw [hp', List.drop_append_of_le_length hn]

/-- Settles O51: each frame keeps the other's five bytes, so neither can give a result other than the end of input where
the other gives the end of input. -/
theorem parserReadsAtMostFiveBytes : Obligations.ParserReadsAtMostFiveBytes := by
  intro inp inp' hfive hsixth
  have hkeep := keepsFiveBytes_of_take_eq hfive hsixth.mp
  have hback := keepsFiveBytes_of_take_eq hfive.symm hsixth.mpr
  refine ⟨fun e hp => ?_, fun h r hp => ?_⟩
  · by_cases he : e = .unexpectedEndOfInput
    · subst he
      cases hp' : parseFixedHeader inp' with
      | ok result =>
        obtain ⟨n, -, -, -, -, hok⟩ := hback.parseFixedHeader_ok hp'
        rw [hp] at hok
        cases hok
      | err e' =>
        by_cases he' : e' = .unexpectedEndOfInput
        · rw [he']
        · have herr := hback.parseFixedHeader_err hp' he'
          rw [hp] at herr
          cases herr
          exact absurd rfl he'
    · exact hkeep.parseFixedHeader_err hp he
  · obtain ⟨n, hlo, hhi, -, hr, hp'⟩ := hkeep.parseFixedHeader_ok hp
    exact ⟨n, hlo, hhi, hr, hp'⟩

end Sys2Proof.Machine

/-! The statements on the control rules (spec/43_control.md): the rule that a cycle runs, what each rule writes and
consumes, and the run of a whole attempt against `ParseFixedHeader` (R196). -/

namespace Sys2Proof.Machine

/-! ### The rule of a cycle (R180, R181) -/

/-- Settles O5: it is the step's definition where the decoder finds a row. -/
theorem stepRunsDecodedCommand : Obligations.StepRunsDecodedCommand := by
  intro s i h
  rw [step, h]
  rfl

/-- R181's table: without reset, at a cursor that can occur with the state, the decoder finds this row. -/
theorem decodeCtl_of_cursor {cs : CtlState} {pos : Pos} (hpos : cs = .len → 1 ≤ pos.toNat ∧ pos.toNat ≤ 5)
    (st v e : Bool) (d : Byte) :
    decodeCtl cs pos (ctlVector false st v e) d = .ok
      (if cs.resting then (if st then .start v e d else .nopIdle v e d)
       else if cs = .hdr then
         (if v then .byteHdr st e d else if e then .eoiHdr st d else .nopBusy st d)
       else if v then (if pos = 5#3 then .byteOver st e d else .byteLen st e d)
       else if e then .eoiLen st d
       else .nopBusy st d) := by
  rw [decodeCtl_ctlVector]
  cases cs with
  | idle | done | err => cases st <;> rfl
  | hdr => cases v <;> cases e <;> rfl
  | len =>
    cases v with
    | false => cases e <;> rfl
    | true =>
      by_cases h5 : pos = 5#3
      · simp [h5, CtlState.resting, Config.posMax]
      · obtain ⟨hlo, hhi⟩ := hpos rfl
        have hne : pos.toNat ≠ 5 := fun h => h5 (BitVec.eq_of_toNat_eq h)
        have hin : lengthPos pos = true := (lengthPos_iff pos).mpr ⟨hlo, by omega⟩
        simp [h5, hin, CtlState.resting, Config.posMax]

/-- Settles O6: the table's row is the decoded one, and the step runs it. -/
theorem stepRunsTheRuleOfTheTable : Obligations.StepRunsTheRuleOfTheTable := by
  intro s st v e d rest hhost hpos
  have hdecode := decodeCtl_of_cursor hpos st v e d
  rw [stepRunsDecodedCommand s _ (by rw [inputs_of_host hhost]; exact hdecode), hhost, List.tail_cons]

/-! ### Inputs that a rule does not read (R183, R193) -/

/-- Two inputs that lead the registers to the same answer give the same step. -/
theorem step_eq_of_stepOn_eq {s : State} {c c' : Cycle} {rest : List Cycle} (hhost : s.host = c :: rest)
    (h : stepOn c' s.advance = stepOn c s.advance) : step { s with host := c' :: rest } = step s := by
  rw [step_eq, step_eq s, inputs_cons, inputs_of_host hhost, ← h, advance_of_host hhost, advance_cons]

theorem stepOn_start_of_busy {r : State} (h : r.busy = true) (c : Cycle) (b : Bool) :
    stepOn { c with start := b } r = stepOn c r := by
  unfold stepOn
  cases hst : r.st with
  | idle | done | err => simp [State.busy, CtlState.resting, hst] at h
  | hdr | len => rfl

/-- Settles O13: no rule of HDR and LEN reads `start`. -/
theorem startWhileBusyHasNoEffect : Obligations.StartWhileBusyHasNoEffect := fun s c _ b hbusy hhost =>
  step_eq_of_stepOn_eq hhost (stepOn_start_of_busy (r := s.advance) hbusy c b)

theorem stepOn_inEoi_of_byte_or_resting {c : Cycle} {r : State} (h : c.inValid = true ∨ r.st.resting = true)
    (b : Bool) : stepOn { c with inEoi := b } r = stepOn c r := by
  unfold stepOn
  cases hst : r.st with
  | idle | done | err => rfl
  | hdr | len =>
    have hbyte : c.inValid = true := h.resolve_right (by rw [hst]; decide)
    simp only [hbyte, if_true]

/-- Settles O16: the rules of a present byte and those of the resting states do not read `in_eoi`. -/
theorem endOfInputReadOnlyWithoutAByte : Obligations.EndOfInputReadOnlyWithoutAByte := fun s _ _ b hhost h =>
  step_eq_of_stepOn_eq hhost (stepOn_inEoi_of_byte_or_resting (r := s.advance) h b)

/-! ### START and NOP (R182, R192, R194) -/

theorem step_of_startTaken {s : State} (h : s.startTaken) : step s = .next s.advance.beginAttempt := by
  obtain ⟨hr, hs, hst⟩ := h
  rw [step_eq, stepOn]
  rcases (resting_iff s.st).mp hst with hst | hst | hst <;> simp [hr, hs, hst]

theorem step_of_resting {s : State} (hst : s.st.resting = true) (hr : s.inputs.rst = false)
    (hs : s.inputs.start = false) : step s = .next s.advance := by
  rw [step_eq, stepOn]
  rcases (resting_iff s.st).mp hst with hst | hst | hst <;> simp [hr, hs, hst]

theorem busy_iff (s : State) : s.busy = true ↔ s.st = .hdr ∨ s.st = .len := by simp [busy_eq]

theorem step_of_offersNothing {s : State} (hbusy : s.busy = true) (h : s.offersNothing) :
    step s = .next s.advance := by
  obtain ⟨hr, hv, he⟩ := h
  rw [step_eq, stepOn]
  rcases (busy_iff s).mp hbusy with hst | hst <;> simp [hr, hv, he, hst]

/-- Settles O12: the rule is carried in the resting states, where no byte is taken. -/
theorem startBeginsAttempt : Obligations.StartBeginsAttempt := by
  intro s hst
  exact ⟨fun _ _ _ => congrArg (whenCarried · s.beginAttempt) hst,
    fun hr hs => ⟨step_of_startTaken ⟨hr, hs, hst⟩, consumes_of_notReady (inReady_of_resting hst _), rfl⟩⟩

/-- Settles O14: the rule is carried in the resting states, where no byte is taken. -/
theorem restingCycleChangesNothing : Obligations.RestingCycleChangesNothing := by
  intro s hst
  exact ⟨fun _ _ _ => congrArg (whenCarried · s) hst,
    fun hr hs => ⟨step_of_resting hst hr hs, consumes_of_notReady (inReady_of_resting hst _)⟩⟩

/-- Settles O15: the rule is carried in the busy states, and no byte is present. -/
theorem busyCycleWithoutInputChangesNothing : Obligations.BusyCycleWithoutInputChangesNothing := by
  intro s hbusy
  exact ⟨fun _ _ => congrArg (whenCarried · s) hbusy,
    fun hr hv he => ⟨step_of_offersNothing hbusy ⟨hr, hv, he⟩, consumes_of_noByte hv⟩⟩

/-! ### Byte 0 (R184 to R187) -/

/-- A byte that the host presents without reset is consumed where the block is ready for it. -/
theorem consumes_of_presented {s : State} {st e : Bool} {d : Byte} {rest : List Cycle}
    (hhost : s.host = ⟨false, st, true, e, d⟩ :: rest) (hready : s.inReady false = true) : s.consumes = some d := by
  have hinputs := inputs_of_host hhost
  rw [consumes_of_ready (by rw [hinputs]) (by rw [hinputs]; exact hready), hinputs]

/-- Settles O18: `runByte0_eq` has both effects, and HDR is ready for the byte. -/
theorem byteZeroTaken : Obligations.ByteZeroTaken := by
  intro s st e d hst
  constructor
  · change runByte0 d s = _
    rw [runByte0_eq, decide_eq_true hst, whenCarried_true]
    by_cases hcode : validType (typeCode d) = true
    · rw [if_pos hcode, if_pos ((validType_iff _).mp hcode)]
      rfl
    · rw [if_neg hcode, if_neg (mt (validType_iff _).mpr hcode)]
      rfl
  · exact fun rest hhost => consumes_of_presented hhost (inReady_of_hdr hst)

/-- Settles O22: of the rules that enter ERR, byte 0's leaves the cursor at 1, and LEN's keep a cursor of at least 1. -/
theorem emptyFrameIsAnError : Obligations.EmptyFrameIsAnError := by
  refine ⟨fun s st d hst => ⟨?_, fun rest hhost => ?_⟩, fun s t hs h hne herr hpos => ?_⟩
  · exact congrArg (whenCarried · (s.raiseError .unexpectedEndOfInput)) (decide_eq_true hst)
  · exact consumes_of_noByte (by rw [inputs_of_host hhost])
  · cases step_cases h with
    | reset | start | accept => cases herr
    | rest | wait => exact absurd herr hne
    | reject => cases hpos
    | take _ hst =>
      rw [State.takeLengthByte_st, State.advance_st, hst] at herr
      split at herr <;> cases herr
    | fifth _ _ _ h5 => rw [State.raise_malformed_pos, State.advance_pos, h5] at hpos; cases hpos
    | ended _ hst hv he =>
      refine ⟨hst.resolve_right fun hlen => ?_, hv, he, rfl⟩
      obtain ⟨hlo, -⟩ := inField_of_inv hs (.inl hlen)
      rw [State.raise_eoi_pos, State.advance_pos] at hpos
      rw [hpos] at hlo
      exact absurd hlo (by decide)

/-! ### Length bytes (R188 to R191) -/

/-- Settles O23: `runLengthByte_eq` has the effect, the block is ready for the byte, and the field's bound makes the OR
a sum. -/
theorem lengthByteTaken : Obligations.LengthByteTaken := by
  intro s st e d hst hlo hhi
  have hready : s.inReady false = true := by
    rw [inReady_of_len hst, decide_eq_true (pos_ne_five_of_le hhi)]
  refine ⟨?_, fun rest hhost => consumes_of_presented hhost hready, fun hs => ?_⟩
  · change runLengthByte d s = _
    rw [runLengthByte_eq, (inLengthField_iff s).mpr ⟨hst, hlo, hhi⟩, whenCarried_true, State.takeLengthByte, hst]
    rfl
  · obtain ⟨-, -, hacc, -⟩ := inField_of_inv hs (.inl hst)
    obtain ⟨hsum, hlt, -⟩ := chunkTerm_or s.acc (chunkOf d) (lengthIndex s.pos) (by unfold lengthIndex; omega) hacc
    have hmax : 128 ^ (lengthIndex s.pos + 1) ≤ 128 ^ 4 :=
      Nat.pow_le_pow_right (by decide) (by unfold lengthIndex; omega)
    exact ⟨hsum, topBits_zero _ (hlt.trans_le hmax)⟩

/-- Settles O25: the row is carried at cursor 5, where the block is not ready. -/
theorem fifthLengthByteIsAnError : Obligations.FifthLengthByteIsAnError := by
  intro s st e d hst hpos
  have hcarried : s.pastLengthField = true := (pastLengthField_iff s).mpr ⟨hst, hpos⟩
  have heffect : exec (.rlOver d) s = .next (s.raiseError .malformedVariableLength) :=
    congrArg (whenCarried · (s.raiseError .malformedVariableLength)) hcarried
  refine ⟨heffect, heffect, fun rest hhost => ?_⟩
  have hready : s.inReady s.inputs.rst = false := by
    rw [inputs_of_host hhost, inReady_of_len hst, hpos]
    decide
  exact ⟨consumes_of_notReady hready, hready⟩

/-- Settles O26: the row is carried in LEN, and no byte is present. -/
theorem endOfInputInFieldIsAnError : Obligations.EndOfInputInFieldIsAnError := fun s _ _ hst =>
  ⟨congrArg (whenCarried · (s.raiseError .unexpectedEndOfInput)) (decide_eq_true hst),
    fun _ hhost => consumes_of_noByte (by rw [inputs_of_host hhost])⟩

/-- Settles O39: byte 0 is accepted or rejected, a length byte is taken, and each operation names its own registers. -/
theorem byteRowsFrame : Obligations.ByteRowsFrame := by
  intro s t st e d
  constructor
  · intro h
    change runByte0 d s = .next t at h
    rw [runByte0_eq, whenCarried_next] at h
    obtain ⟨-, rfl⟩ := h
    split
    · exact ⟨rfl, fun _ => ⟨rfl, rfl⟩, nofun⟩
    · exact ⟨rfl, nofun, fun _ => ⟨rfl, rfl⟩⟩
  · intro h
    change runLengthByte d s = .next t at h
    rw [runLengthByte_eq, whenCarried_next] at h
    obtain ⟨-, rfl⟩ := h
    exact ⟨rfl, rfl, rfl, rfl⟩

/-! ### The result that the registers hold -/

/-- The error that `ekind` and `evalue` name. -/
def State.parseError (s : State) : Option ParseError :=
  match s.ekind with
  | .noError => none
  | .invalidPacketType => some (.invalidPacketType s.evalue)
  | .unexpectedEndOfInput => some .unexpectedEndOfInput
  | .malformedVariableLength => some .malformedVariableLength

/-- The result of an attempt on `frame`, read off the registers: the header and the remainder after `pos` bytes in DONE,
the error in ERR. -/
def State.result (s : State) (frame : Frame) : Option (Parsed (FixedHeader × Frame)) :=
  match s.st with
  | .done => (packetOf s.ptype).map fun t => .ok (⟨t, s.pflags, s.acc⟩, frame.drop s.pos.toNat)
  | .err => s.parseError.map .err
  | .idle | .hdr | .len => none

theorem packetOf_eq_some_iff {c : Nibble} {t : PacketType} : packetOf c = some t ↔ c = packetCode t := by
  constructor
  · intro h
    have hres : resolvePacketType c = .ok t := by rw [resolvePacketType, h]
    exact (resolvePacketType_ok hres).1.symm
  · rintro rfl
    exact packetOf_packetCode t

theorem ErrKind.code_inj {k k' : ErrKind} : k.code = k'.code ↔ k = k' := by
  cases k <;> cases k' <;> decide

/-- An error kind's code is on the port exactly in ERR with that kind. -/
theorem outputs_errKind_iff {s : State} {k : ErrKind} (rst : Bool) (hk : k ≠ .noError) :
    (s.outputs rst).errKind = k.code ↔ s.st = .err ∧ s.ekind = k := by
  by_cases hst : s.st = .err
  · rw [(outputs_error_ports rst hst).1, ErrKind.code_inj]
    simp [hst]
  · rw [(outputs_error_ports_zero rst hst).1]
    simpa [hst] using ((ErrKind.code_ne_zero_iff k).mpr hk).symm

/-- The header outputs, with `done`, are a successful result. -/
theorem result_ok_iff {s : State} {frame : Frame} {h : FixedHeader} {r : Frame} (rst : Bool) :
    s.result frame = some (.ok (h, r)) ↔
      (s.outputs rst).done = true ∧ (s.outputs rst).hdrType = packetCode h.packetType ∧
        (s.outputs rst).hdrFlags = h.packetFlags ∧ (s.outputs rst).hdrRemLen = h.remainingLength ∧
        r = frame.drop (s.outputs rst).consumed.toNat := by
  obtain ⟨t, flags, v⟩ := h
  cases hst : s.st with
  | idle | hdr | len => simp [State.result, hst]
  | err => simp [State.result, hst]
  | done =>
    obtain ⟨htype, hflags, hlen⟩ := outputs_header_ports rst hst
    have hconsumed : (s.outputs rst).consumed = s.pos := rfl
    rw [htype, hflags, hlen, hconsumed, outputs_done, ← packetOf_eq_some_iff]
    simp only [State.result, hst]
    cases packetOf s.ptype <;> simp [eq_comm, and_assoc]

/-- The kind that `ekind` names an error by. -/
def ParseError.kind : ParseError → ErrKind
  | .invalidPacketType _ => .invalidPacketType
  | .unexpectedEndOfInput => .unexpectedEndOfInput
  | .malformedVariableLength => .malformedVariableLength

theorem ParseError.kind_ne_noError (e : ParseError) : e.kind ≠ .noError := by cases e <;> nofun

theorem parseError_eq_some_iff {s : State} {e : ParseError} :
    s.parseError = some e ↔ s.ekind = e.kind ∧ ∀ c, e = .invalidPacketType c → s.evalue = c := by
  unfold State.parseError
  cases s.ekind <;> cases e <;> simp [ParseError.kind]

/-- The error outputs, with `error`, are a failed result. -/
theorem result_err_iff {s : State} {frame : Frame} {e : ParseError} (rst : Bool) :
    s.result frame = some (.err e) ↔
      (s.outputs rst).error = true ∧ (s.outputs rst).errKind = e.kind.code ∧
        ∀ c, e = .invalidPacketType c → (s.outputs rst).errValue = c := by
  rw [outputs_error, decide_eq_true_iff, outputs_errKind_iff rst e.kind_ne_noError]
  cases hst : s.st with
  | idle | hdr | len | done => simp [State.result, hst]
  | err =>
    rw [(outputs_error_ports rst hst).2]
    simp [State.result, hst, parseError_eq_some_iff]

theorem result_of_done {s : State} {t : PacketType} (frame : Frame) (hst : s.st = .done)
    (ht : s.ptype = packetCode t) :
    s.result frame = some (.ok (⟨t, s.pflags, s.acc⟩, frame.drop s.pos.toNat)) := by
  simp [State.result, hst, ht, packetOf_packetCode]

/-! ### The length decoder's loop, one iteration at a time (R131) -/

theorem avail_of_memRead {inp : Frame} {k : Nat} {b : Byte} (h : memRead inp k = some b) : avail inp k = true :=
  decide_eq_true (List.getElem?_eq_some_iff.mp h).1

theorem lengthLoop_of_byte {inp : Frame} {off i : Nat} {b : Byte} (hb : memRead inp (off + i) = some b) (left : Nat)
    (v : Word32) :
    lengthLoop inp off (left + 1) i v =
      if contBit b then lengthLoop inp off left (i + 1) (v + chunkTerm i (chunkOf b))
      else .ok (v + chunkTerm i (chunkOf b), i + 1) := by
  simp [lengthLoop, hb]

theorem lengthLoop_of_end {inp : Frame} {off i : Nat} (hend : avail inp (off + i) = false) (left : Nat) (v : Word32) :
    lengthLoop inp off left i v = .err .unexpectedEndOfInput :=
  lengthLoop_end inp off left i i v le_rfl (by omega) hend (fun j hj hj' => absurd hj' (by omega))

theorem lengthLoop_of_fifth {inp : Frame} {off i : Nat} (hfifth : avail inp (off + i) = true) (v : Word32) :
    lengthLoop inp off 0 i v = .err .malformedVariableLength := by
  simp [lengthLoop, hfifth]

/-! ### The run of an attempt on a frame (R196) -/

/-- `ptype` and `pflags` hold the nibbles of the frame's byte 0. -/
abbrev State.HoldsByteZero (s : State) (frame : Frame) : Prop :=
  ∃ b, memRead frame 0 = some b ∧ s.ptype = typeCode b ∧ s.pflags = flagsOf b

/-- How the registers stand to the parser on `frame` after `n` cycles that were no NOP: before byte 0; inside the length
field, where `acc` is the running value of the decoder's loop at the iteration that the cursor names; or at the end. -/
inductive Tracks (frame : Frame) (s : State) : Nat → Prop
  | start : s.st = .hdr → Tracks frame s 0
  | field (left i : Nat) : s.st = .len → left + i = 4 → s.pos.toNat = 1 + i → 1 + i ≤ frame.length →
      s.HoldsByteZero frame → decodeRemainingLength frame 1 = lengthLoop frame 1 left i s.acc → Tracks frame s (1 + i)
  | done (k : Nat) : s.st = .done → s.pos.toNat = 1 + k → decodeRemainingLength frame 1 = .ok (s.acc, k) →
      s.result frame = some (parseFixedHeader frame) → Tracks frame s (1 + k)
  | err (n : Nat) : s.st = .err → n ≤ s.pos.toNat + 1 →
      (s.ekind = .unexpectedEndOfInput → s.pos.toNat = frame.length) →
      s.result frame = some (parseFixedHeader frame) → Tracks frame s n

theorem tracks_advance {frame : Frame} {s : State} {n : Nat} (h : Tracks frame s n) : Tracks frame s.advance n := by
  cases h with
  | start hst => exact .start hst
  | field left i hst hleft hpos hlen hbyte hdec => exact .field left i hst hleft hpos hlen hbyte hdec
  | done k hst hpos hdec hres => exact .done k hst hpos hdec hres
  | err _ hst hn hend hres => exact .err n hst hn hend hres

theorem tracks_hdr {frame : Frame} {s : State} {n : Nat} (h : Tracks frame s n) (hst : s.st = .hdr) : n = 0 := by
  cases h with
  | start => rfl
  | field _ _ hst' | done _ hst' | err _ hst' => rw [hst] at hst'; cases hst'

/-- A byte 0 that is held with a valid code resolves to the packet type of that code. -/
theorem holdsByteZero_resolves {s : State} {frame : Frame} (hbyte : s.HoldsByteZero frame)
    (hcode : validType s.ptype = true) :
    ∃ b t, memRead frame 0 = some b ∧ resolvePacketType (typeCode b) = .ok t ∧ s.ptype = packetCode t ∧
      s.pflags = flagsOf b := by
  obtain ⟨b, hb, htype, hflags⟩ := hbyte
  obtain ⟨t, ht⟩ := resolvePacketType_of_valid (htype ▸ hcode)
  obtain ⟨hpacket, -⟩ := resolvePacketType_ok ht
  exact ⟨b, t, hb, ht, htype.trans hpacket.symm, hflags⟩

/-- Byte 0 with a valid code starts the decoder's loop at iteration 0. -/
theorem tracks_acceptByte0 {frame : Frame} {s : State} {b : Byte} (hb : memRead frame 0 = some b)
    (hacc : s.acc = 0#32) : Tracks frame (s.acceptByte0 (typeCode b) (flagsOf b)) 1 := by
  obtain ⟨hlen, -⟩ := List.getElem?_eq_some_iff.mp hb
  refine .field 4 0 rfl rfl rfl hlen ⟨b, hb, rfl, rfl⟩ ?_
  rw [State.acceptByte0_acc, hacc]
  rfl

/-- Byte 0 with a reserved code is the parser's InvalidPacketType. -/
theorem tracks_rejectByte0 {frame : Frame} {s : State} {b : Byte} (hb : memRead frame 0 = some b)
    (hcode : typeCode b = 0#4 ∨ typeCode b = 15#4) : Tracks frame (s.rejectByte0 (typeCode b)) 1 := by
  have hparse : parseFixedHeader frame = .err (.invalidPacketType (typeCode b)) :=
    parseFixedHeader_err_iff.mpr
      (.inr ⟨b, hb, .inl (resolvePacketType_of_invalid (validType_eq_false_of_reserved hcode))⟩)
  refine .err 1 rfl (by omega) nofun ?_
  rw [hparse]
  rfl

/-- The end of input before byte 0 is the parser's error on the empty frame. -/
theorem tracks_end_hdr {frame : Frame} {s : State} (hpos : s.pos = 0#3) (hend : memRead frame 0 = none) :
    Tracks frame (s.raiseError .unexpectedEndOfInput) 1 := by
  have hparse : parseFixedHeader frame = .err .unexpectedEndOfInput :=
    parseFixedHeader_err_iff.mpr (.inl ⟨hend, rfl⟩)
  have hlen : frame.length = 0 := by simpa [memRead] using hend
  refine .err 1 rfl (by omega) (fun _ => ?_) ?_
  · rw [State.raise_eoi_pos, hpos, hlen]
    rfl
  · rw [hparse]
    rfl

section Field

variable {frame : Frame} {s : State} {left i : Nat}

/-- An error of the length decoder is the parser's, once byte 0 is accepted. -/
theorem parseFixedHeader_of_field_err {e : ParseError} (hbyte : s.HoldsByteZero frame)
    (hcode : validType s.ptype = true) (hdec : decodeRemainingLength frame 1 = .err e) :
    parseFixedHeader frame = .err e := by
  obtain ⟨b, t, hb, ht, -, -⟩ := holdsByteZero_resolves hbyte hcode
  exact parseFixedHeader_err_iff.mpr (.inr ⟨b, hb, .inr ⟨t, ht, hdec⟩⟩)

/-- A length is the parser's, once byte 0 is accepted, and the header has byte 0's two nibbles. -/
theorem parseFixedHeader_of_field_ok {v : Word32} {k : Nat} (hbyte : s.HoldsByteZero frame)
    (hcode : validType s.ptype = true) (hdec : decodeRemainingLength frame 1 = .ok (v, k)) :
    ∃ t, s.ptype = packetCode t ∧ parseFixedHeader frame = .ok (⟨t, s.pflags, v⟩, frame.drop (1 + k)) := by
  obtain ⟨b, t, hb, ht, htype, hflags⟩ := holdsByteZero_resolves hbyte hcode
  exact ⟨t, htype, parseFixedHeader_ok_iff.mpr ⟨b, k, hb, ht, hflags, hdec, rfl⟩⟩

/-- A length byte is one iteration of the decoder's loop. -/
theorem tracks_takeLengthByte {b : Byte} (hst : s.st = .len) (hleft : left + 1 + i = 4) (hpos : s.pos.toNat = 1 + i)
    (hfield : s.InField) (hbyte : s.HoldsByteZero frame) (hb : memRead frame (1 + i) = some b)
    (hdec : decodeRemainingLength frame 1 = lengthLoop frame 1 (left + 1) i s.acc) :
    Tracks frame (s.takeLengthByte (contBit b) (chunkOf b)) (1 + (i + 1)) := by
  obtain ⟨-, -, hacc, hcode⟩ := hfield
  obtain ⟨hlen, -⟩ := List.getElem?_eq_some_iff.mp hb
  have hindex : lengthIndex s.pos = i := by unfold lengthIndex; omega
  have hpos' (more : Bool) : (s.takeLengthByte more (chunkOf b)).pos.toNat = 1 + (i + 1) := by
    rw [State.takeLengthByte_pos, pos_succ_toNat (by omega), hpos]
    omega
  have hacc' (more : Bool) : (s.takeLengthByte more (chunkOf b)).acc = s.acc + chunkTerm i (chunkOf b) := by
    rw [hpos, Nat.add_sub_cancel_left] at hacc
    obtain ⟨-, -, hsum⟩ := chunkTerm_or s.acc (chunkOf b) i (by omega) hacc
    rw [State.takeLengthByte_acc, hindex, hsum]
  rw [lengthLoop_of_byte hb] at hdec
  cases hmore : contBit b <;> rw [hmore] at hdec
  case true => exact .field left (i + 1) hst (by omega) (hpos' _) (by omega) hbyte (by rw [hdec, hacc']; rfl)
  case false =>
    have hdec' : decodeRemainingLength frame 1 = .ok ((s.takeLengthByte false (chunkOf b)).acc, i + 1) := by
      rw [hdec, hacc']
      rfl
    obtain ⟨t, htype, hparse⟩ := parseFixedHeader_of_field_ok hbyte hcode hdec'
    refine .done (i + 1) rfl (hpos' _) hdec' ?_
    rw [result_of_done (s := s.takeLengthByte false (chunkOf b)) frame rfl htype, hpos', hparse]
    rfl

/-- A fifth length byte is the decoder's malformed length. -/
theorem tracks_fifth (hpos : s.pos.toNat = 1 + i) (hcode : validType s.ptype = true) (hbyte : s.HoldsByteZero frame)
    (hfifth : avail frame (1 + i) = true) (hdec : decodeRemainingLength frame 1 = lengthLoop frame 1 0 i s.acc) :
    Tracks frame (s.raiseError .malformedVariableLength) (1 + i + 1) := by
  have hparse := parseFixedHeader_of_field_err hbyte hcode (hdec.trans (lengthLoop_of_fifth hfifth s.acc))
  refine .err _ rfl (by rw [State.raise_malformed_pos]; omega) nofun ?_
  rw [hparse]
  rfl

/-- The end of input inside the field is the decoder's. -/
theorem tracks_end_len (hpos : s.pos.toNat = 1 + i) (hlen : 1 + i ≤ frame.length) (hcode : validType s.ptype = true)
    (hbyte : s.HoldsByteZero frame) (hend : avail frame (1 + i) = false)
    (hdec : decodeRemainingLength frame 1 = lengthLoop frame 1 left i s.acc) :
    Tracks frame (s.raiseError .unexpectedEndOfInput) (1 + i + 1) := by
  have hparse := parseFixedHeader_of_field_err hbyte hcode (hdec.trans (lengthLoop_of_end hend left s.acc))
  refine .err _ rfl (by rw [State.raise_eoi_pos]; omega) (fun _ => ?_) (by rw [hparse]; rfl)
  rw [avail, decide_eq_false_iff_not] at hend
  rw [State.raise_eoi_pos]
  omega

end Field

/-- In LEN the loop's iteration is the cursor's. -/
theorem tracks_len {frame : Frame} {s : State} {n : Nat} (h : Tracks frame s n) (hst : s.st = .len) :
    ∃ left i, n = 1 + i ∧ left + i = 4 ∧ s.pos.toNat = 1 + i ∧ 1 + i ≤ frame.length ∧ s.HoldsByteZero frame ∧
      decodeRemainingLength frame 1 = lengthLoop frame 1 left i s.acc := by
  cases h with
  | field left i _ hleft hpos hlen hbyte hdec => exact ⟨left, i, rfl, hleft, hpos, hlen, hbyte, hdec⟩
  | start hst' | done _ hst' | err _ hst' => rw [hst] at hst'; cases hst'

/-- A cycle that offers the frame's next byte, or its end, is one step of the parser. -/
theorem tracks_step {frame : Frame} {s u : State} {n : Nat} (hs : s.Inv) (h : Tracks frame s n) (hbusy : s.busy = true)
    (hoffer : s.offersFrom frame) (hstep : step s = .next u) : Tracks frame u (n + 1) := by
  obtain ⟨hr, hinput⟩ := hoffer
  have hread (hv : s.inputs.inValid = true) : memRead frame s.pos.toNat = some s.inputs.inData := by
    simpa [hv] using hinput
  have hnotResting (hst : s.st.resting = true) : False := by simp [State.busy, hst] at hbusy
  cases step_cases hstep with
  | reset hr' => rw [hr] at hr'; cases hr'
  | start _ _ hst | rest _ _ hst => exact (hnotResting hst).elim
  | wait _ _ hv he => simp [hv, he] at hinput
  | accept _ hst hv =>
    obtain ⟨hpos, hacc, -⟩ := cleared_of_inv hs (.inr hst)
    obtain rfl := tracks_hdr h hst
    exact tracks_acceptByte0 (by simpa [hpos] using hread hv) hacc
  | reject _ hst hv hcode =>
    obtain ⟨hpos, -⟩ := cleared_of_inv hs (.inr hst)
    obtain rfl := tracks_hdr h hst
    exact tracks_rejectByte0 (by simpa [hpos] using hread hv) hcode
  | take _ hst hv _ hhi =>
    obtain ⟨left, i, rfl, hleft, hpos, -, hbyte, hdec⟩ := tracks_len h hst
    obtain ⟨left, rfl⟩ : ∃ k, left = k + 1 := ⟨left - 1, by omega⟩
    exact tracks_takeLengthByte hst hleft hpos (inField_of_inv hs (.inl hst)) hbyte (hpos ▸ hread hv) hdec
  | fifth _ hst hv h5 =>
    obtain ⟨left, i, rfl, hleft, hpos, -, hbyte, hdec⟩ := tracks_len h hst
    obtain ⟨-, -, -, hcode⟩ := inField_of_inv hs (.inl hst)
    have hfive : 5 = 1 + i := by rw [← hpos, h5]; rfl
    obtain rfl : left = 0 := by omega
    exact tracks_fifth hpos hcode hbyte (avail_of_memRead (hpos ▸ hread hv)) hdec
  | ended _ hst hv he =>
    have hend : avail frame s.pos.toNat = false := by simpa [hv, he] using hinput
    rcases hst with hst | hst
    · obtain ⟨hpos, -⟩ := cleared_of_inv hs (.inr hst)
      obtain rfl := tracks_hdr h hst
      exact tracks_end_hdr hpos (memRead_eq_none_iff_avail.mpr (by simpa [hpos] using hend))
    · obtain ⟨left, i, rfl, -, hpos, hlen, hbyte, hdec⟩ := tracks_len h hst
      obtain ⟨-, -, -, hcode⟩ := inField_of_inv hs (.inl hst)
      exact tracks_end_len hpos hlen hcode hbyte (hpos ▸ hend) hdec

/-- Every busy run keeps the invariant and stays in step with the parser. -/
theorem tracks_of_busyRun {frame : Frame} {m : Nat} {s t : State} (hrun : BusyRun frame m s t) :
    ∀ n, s.Inv → Tracks frame s n → t.Inv ∧ Tracks frame t (n + m) := by
  induction hrun with
  | nil s => exact fun n hs h => ⟨hs, h⟩
  | nop m s u t hbusy hquiet hstep _ ih =>
    intro n hs h
    rw [step_of_offersNothing hbusy hquiet] at hstep
    cases hstep
    exact ih n (inv_of_host hs _) (tracks_advance h)
  | act m s u t hbusy hoffer hstep _ ih =>
    intro n hs h
    rw [← Nat.add_assoc, Nat.add_right_comm]
    exact ih (n + 1) (stepKeepsInvariant s u hs hstep) (tracks_step hs h hbusy hoffer hstep)

/-! ### The end of a run -/

theorem pos_le_five_of_inv {s : State} (hs : s.Inv) : s.pos.toNat ≤ 5 := by
  have hliteral {p : Pos} (h : s.pos = p) (hp : p.toNat ≤ 5) : s.pos.toNat ≤ 5 := h ▸ hp
  have hcleared (h : s.Cleared) : s.pos.toNat ≤ 5 := by
    obtain ⟨hpos, -⟩ := h
    exact hliteral hpos (by decide)
  have hfield (h : s.InField) : s.pos.toNat ≤ 5 := by
    obtain ⟨-, hhi, -⟩ := h
    exact hhi
  cases hst : s.st with
  | idle => exact hcleared (cleared_of_inv hs (.inl hst))
  | hdr => exact hcleared (cleared_of_inv hs (.inr hst))
  | len => exact hfield (inField_of_inv hs (.inl hst))
  | done => exact hfield (inField_of_inv hs (.inr hst))
  | err =>
    rcases errorForm_of_inv hs hst with ⟨-, -, hpos, -⟩ | ⟨-, -, ⟨hpos, -⟩ | hform⟩ | ⟨-, -, hpos, -⟩
    · exact hliteral hpos (by decide)
    · exact hliteral hpos (by decide)
    · exact hfield hform
    · exact hliteral hpos (by decide)

theorem pos_of_invalidPacketType {s : State} (h : s.ErrorForm) (hk : s.ekind = .invalidPacketType) : s.pos = 1#3 := by
  rcases h with ⟨-, -, hpos, -⟩ | ⟨hk', -⟩ | ⟨hk', -⟩
  · exact hpos
  all_goals rw [hk] at hk'; cases hk'

theorem pos_of_malformedVariableLength {s : State} (h : s.ErrorForm) (hk : s.ekind = .malformedVariableLength) :
    s.pos = 5#3 := by
  rcases h with ⟨hk', -⟩ | ⟨hk', -⟩ | ⟨-, -, hpos, -⟩
  case inr.inr => exact hpos
  all_goals rw [hk] at hk'; cases hk'

theorem tracks_count_le {frame : Frame} {s : State} {n : Nat} (h : Tracks frame s n) : n ≤ s.pos.toNat + 1 := by
  cases h with
  | start => exact Nat.zero_le _
  | field _ _ _ _ hpos | done _ _ hpos => omega
  | err _ _ hn => exact hn

theorem tracks_count_le_of_busy {frame : Frame} {s : State} {n : Nat} (h : Tracks frame s n) (hbusy : s.busy = true) :
    n ≤ s.pos.toNat := by
  rcases (busy_iff s).mp hbusy with hst | hst
  · rw [tracks_hdr h hst]
    exact Nat.zero_le _
  · obtain ⟨_, i, rfl, -, hpos, -⟩ := tracks_len h hst
    exact hpos.ge

/-- A run that is over has the parser's result. -/
theorem tracks_ended {frame : Frame} {s : State} {n : Nat} (h : Tracks frame s n) (hbusy : s.busy = false) :
    (s.st = .done ∨ s.st = .err) ∧ s.result frame = some (parseFixedHeader frame) := by
  cases h with
  | start hst | field _ _ hst => simp [busy_eq, hst] at hbusy
  | done _ hst _ _ hres => exact ⟨.inl hst, hres⟩
  | err _ hst _ _ hres => exact ⟨.inr hst, hres⟩

/-- In DONE the cursor and the count are those of byte 0 and the decoder's length bytes. -/
theorem tracks_done_count {frame : Frame} {s : State} {n k : Nat} {v : Word32} (h : Tracks frame s n)
    (hst : s.st = .done) (hdec : decodeRemainingLength frame 1 = .ok (v, k)) : s.pos.toNat = 1 + k ∧ n = 1 + k := by
  cases h with
  | start hst' | field _ _ hst' | err _ hst' => rw [hst] at hst'; cases hst'
  | done k' _ hpos hdec' =>
    rw [hdec] at hdec'
    cases hdec'
    exact ⟨hpos, rfl⟩

/-- At the end of input every byte of the frame has been taken. -/
theorem tracks_end_pos {frame : Frame} {s : State} {n : Nat} (h : Tracks frame s n) (hst : s.st = .err)
    (hk : s.ekind = .unexpectedEndOfInput) : s.pos.toNat = frame.length := by
  cases h with
  | start hst' | field _ _ hst' | done _ hst' => rw [hst] at hst'; cases hst'
  | err _ _ _ hend => exact hend hk

/-- Settles O53: the run stays in step with the parser, so that at its end the registers hold the parser's result, which
the outputs show. -/
theorem blockComputesParseFixedHeader : Obligations.BlockComputesParseFixedHeader := by
  intro frame s u t n hstart hstep hrun
  rw [step_of_startTaken hstart] at hstep
  cases hstep
  obtain ⟨hinv, htracks⟩ :=
    tracks_of_busyRun hrun 0 (inv_of_cleared (.inr rfl) (beginAttempt_cleared _)) (.start rfl)
  rw [Nat.zero_add] at htracks
  have hpos := pos_le_five_of_inv hinv
  have hcount := tracks_count_le htracks
  refine ⟨by omega, hpos, fun hsix => ?_, fun hbusy rst => ?_⟩
  · by_contra hbusy
    have hle := tracks_count_le_of_busy htracks (by simpa using hbusy)
    omega
  obtain ⟨hended, hresult⟩ := tracks_ended htracks hbusy
  have hparse (res : Parsed (FixedHeader × Frame)) : parseFixedHeader frame = res ↔ t.result frame = some res := by
    rw [hresult, Option.some.injEq]
  refine ⟨hended, fun h r => (hparse _).trans (result_ok_iff rst),
    fun v k hdec hst => tracks_done_count htracks hst hdec,
    fun c => (hparse _).trans ?_, (hparse _).trans ?_, (hparse _).trans ?_, fun hk => ?_, fun hk => ?_, fun hk => ?_⟩
  · simpa [ParseError.kind, ErrKind.code] using result_err_iff (frame := frame) (e := .invalidPacketType c) rst
  · simpa [ParseError.kind, ErrKind.code] using result_err_iff (frame := frame) (e := .unexpectedEndOfInput) rst
  · simpa [ParseError.kind, ErrKind.code] using result_err_iff (frame := frame) (e := .malformedVariableLength) rst
  · obtain ⟨hst, hkind⟩ := (outputs_errKind_iff (k := .invalidPacketType) rst nofun).mp hk
    exact pos_of_invalidPacketType (errorForm_of_inv hinv hst) hkind
  · obtain ⟨hst, hkind⟩ := (outputs_errKind_iff (k := .unexpectedEndOfInput) rst nofun).mp hk
    exact tracks_end_pos htracks hst hkind
  · obtain ⟨hst, hkind⟩ := (outputs_errKind_iff (k := .malformedVariableLength) rst nofun).mp hk
    exact pos_of_malformedVariableLength (errorForm_of_inv hinv hst) hkind

end Sys2Proof.Machine

/-! The statements on the error state (spec/60_exceptions.md): the three ways into ERR, and the two out of it. -/

namespace Sys2Proof.Machine

/-! ### Entering ERR (R215) -/

/-- The ways into ERR: byte 0 is rejected, the input ends, or a fifth length byte is present. -/
inductive ErrorEntry (s : State) : State → Prop
  /-- R186 -/
  | reject (code : Nibble) : s.st = .hdr → code = 0#4 ∨ code = 15#4 → ErrorEntry s (s.rejectByte0 code)
  /-- R187, R191 -/
  | ended : s.st = .hdr ∨ s.st = .len → ErrorEntry s (s.raiseError .unexpectedEndOfInput)
  /-- R190 -/
  | fifth : s.st = .len → s.pos = 5#3 → ErrorEntry s (s.raiseError .malformedVariableLength)

/-- Taking a length byte never enters ERR: it keeps the control state or leads to DONE. -/
theorem takeLengthByte_st_ne_err {s : State} (more : Bool) (chunk : Chunk) (hne : s.st ≠ .err) :
    (s.takeLengthByte more chunk).st ≠ .err := by
  rw [State.takeLengthByte_st]
  cases more
  case true => exact hne
  case false => nofun

/-- The fifth length byte, read by either of its two rows, enters ERR at cursor 5 of LEN. -/
theorem errorEntry_of_execRlOver (b : Byte) {s t : State} (h : execRlOver b s = .next t) : ErrorEntry s t := by
  obtain ⟨hplace, rfl⟩ := whenCarried_next.mp h
  obtain ⟨hst, hpos⟩ := (pastLengthField_iff s).mp hplace
  exact .fifth hst hpos

/-- An instruction that enters ERR does so in one of the three ways. -/
theorem errorEntry_of_exec {i : Instr} {s t : State} (h : exec i s = .next t) (hne : s.st ≠ .err)
    (herr : t.st = .err) : ErrorEntry s t := by
  cases i with
  | reserved0 =>
    obtain ⟨hst, rfl⟩ := whenCarried_next.mp h
    exact .reject _ (of_decide_eq_true hst) (.inl rfl)
  | reserved15 =>
    obtain ⟨hst, rfl⟩ := whenCarried_next.mp h
    exact .reject _ (of_decide_eq_true hst) (.inr rfl)
  | byteHdr _ _ b =>
    obtain ⟨hst, rfl⟩ := whenCarried_next.mp ((runByte0_eq b s).symm.trans h)
    by_cases hcode : validType (typeCode b) = true
    · rw [if_pos hcode] at herr
      cases herr
    · rw [if_neg hcode]
      rw [validType_iff] at hcode
      exact .reject _ (of_decide_eq_true hst) (by tauto)
  | eoiHdr =>
    obtain ⟨hst, rfl⟩ := whenCarried_next.mp h
    exact .ended (.inl (of_decide_eq_true hst))
  | eoiLen =>
    obtain ⟨hst, rfl⟩ := whenCarried_next.mp h
    exact .ended (.inr (of_decide_eq_true hst))
  | rlOver b | byteOver _ _ b => exact errorEntry_of_execRlOver b h
  | rlCont | rlLast =>
    obtain ⟨-, rfl⟩ := whenCarried_next.mp h
    exact absurd herr (takeLengthByte_st_ne_err _ _ hne)
  | byteLen _ _ b =>
    obtain ⟨-, rfl⟩ := whenCarried_next.mp ((runLengthByte_eq b s).symm.trans h)
    exact absurd herr (takeLengthByte_st_ne_err _ _ hne)
  | nopIdle | nopBusy =>
    obtain ⟨-, rfl⟩ := whenCarried_next.mp h
    exact absurd herr hne
  | reset => cases h; cases herr
  | start | connect | connack | publish | puback | pubrec | pubrel | pubcomp | subscribe | suback | unsubscribe
  | unsuback | pingreq | pingresp | disconnect =>
    obtain ⟨-, rfl⟩ := whenCarried_next.mp h
    cases herr

/-- Settles O36: each of the three ways into ERR names its own registers. -/
theorem errorEntryFrame : Obligations.ErrorEntryFrame := by
  intro i s t h hne herr
  cases errorEntry_of_exec h hne herr with
  | reject code hst hcode => exact ⟨nofun, rfl, rfl, rfl, fun _ => ⟨hst, rfl, hcode⟩, fun hk => absurd rfl hk, nofun⟩
  | ended => exact ⟨nofun, rfl, rfl, rfl, nofun, fun _ => ⟨rfl, rfl⟩, nofun⟩
  | fifth _ hpos => exact ⟨nofun, rfl, rfl, rfl, nofun, fun _ => ⟨rfl, rfl⟩, fun _ => hpos⟩

/-! ### Leaving ERR (R218) -/

/-- The output ports show the registers only: the inputs gone by do not change them. -/
theorem outputs_advance (s : State) (rst : Bool) : s.advance.outputs rst = s.outputs rst := rfl

/-- Settles O37: of the rules that the step runs, reset, START and the resting NOP are the ones carried in ERR. -/
theorem errorHeldUntilStartOrReset : Obligations.ErrorHeldUntilStartOrReset := by
  intro s t hst h
  have hbusy : ¬ (s.st = .hdr ∨ s.st = .len) := by rw [hst]; decide
  cases step_cases h with
  | reset hr => exact .inl ⟨hr, rfl⟩
  | start hr hs => exact .inr (.inl ⟨hr, hs, rfl, beginAttempt_cleared _⟩)
  | rest hr hs => exact .inr (.inr ⟨hr, hs, rfl, outputs_advance s⟩)
  | accept _ hst' | reject _ hst' => exact absurd (.inl hst') hbusy
  | take _ hst' | fifth _ hst' => exact absurd (.inr hst') hbusy
  | ended _ hst' | wait _ hst' => exact absurd hst' hbusy

end Sys2Proof.Machine

/-! The statements on reset and on the timing of a cycle (spec/70_reset_and_hazards.md): reset from any state, the sampling
of `in_data`, and the cycles that a header takes. -/

namespace Sys2Proof.Machine

/-! ### Reset (R240) -/

theorem step_of_rst {s : State} (h : s.inputs.rst = true) : step s = .next s.advance.clearRegisters := by
  rw [step_eq, stepOn, if_pos h]

theorem inReady_of_rst (s : State) : s.inReady true = false := rfl

/-- Settles O11: the step clears the registers before it looks at any other input, the block is not ready in a reset
cycle, and the outputs that follow are those of the reset state. -/
theorem resetFromAnyState : Obligations.ResetFromAnyState := by
  refine ⟨fun s hrst => ?_, fun _ _ _ _ _ => rfl⟩
  have hready : s.inReady s.inputs.rst = false := by rw [hrst, inReady_of_rst]
  obtain ⟨-, -, -, -, -, -, -, houtputs⟩ := resetStateAndOutputs
  exact ⟨step_of_rst hrst, hready, consumes_of_notReady hready, houtputs⟩

/-! ### The sampling of in_data (R247) -/

theorem consumes_eq_none_iff (s : State) :
    s.consumes = none ↔ s.inputs.inValid = false ∨ s.inReady s.inputs.rst = false := by
  unfold State.consumes
  cases s.inputs.inValid <;> cases s.inReady s.inputs.rst <;> simp

/-- Where no byte is present, or the block is not ready for one, no rule reads `in_data`. -/
theorem stepOn_inData_of_notConsumed {c : Cycle} {r : State} (h : c.inValid = false ∨ r.inReady c.rst = false)
    (d : Byte) : stepOn { c with inData := d } r = stepOn c r := by
  obtain ⟨rst, start, valid, eoi, data⟩ := c
  cases rst with
  | true => rfl
  | false =>
    unfold stepOn
    cases hst : r.st with
    | idle | done | err => rfl
    | hdr =>
      obtain rfl : valid = false := h.resolve_right (by simp [inReady_of_hdr hst])
      rfl
    | len =>
      rcases h with rfl | hready
      · rfl
      · have hpos : r.pos = 5#3 := by simpa [inReady_of_len hst] using hready
        simp [hpos]

/-- Settles O17: a cycle without a Consume() is one whose rule does not read `in_data`. -/
theorem dataSampledOnlyWhenConsumed : Obligations.DataSampledOnlyWhenConsumed := by
  intro s c rest d hhost hnone
  rw [consumes_eq_none_iff, inputs_of_host hhost] at hnone
  exact step_eq_of_stepOn_eq hhost (stepOn_inData_of_notConsumed (r := s.advance) hnone d)

/-! ### A header in one run of bytes (R252) -/

theorem step_host {s t : State} (h : step s = .next t) : t.host = s.host.tail := by
  cases step_cases h <;> rfl

/-- On a frame that the parser accepts, an attempt is busy while bytes of the header are missing, and then in DONE with
the parser's header. -/
theorem tracks_of_accepted {frame : Frame} {h : FixedHeader} {r : Frame} {v : Word32} {n m : Nat} {s : State}
    (hparse : parseFixedHeader frame = .ok (h, r)) (hdec : decodeRemainingLength frame 1 = .ok (v, n)) (hs : s.Inv)
    (htracks : Tracks frame s m) :
    (s.busy = true ∧ s.pos.toNat = m ∧ m < 1 + n) ∨
      (s.st = .done ∧ s.pos.toNat = m ∧ m = 1 + n ∧ s.result frame = some (.ok (h, r))) := by
  cases htracks with
  | start hst =>
    obtain ⟨hpos, -⟩ := cleared_of_inv hs (.inr hst)
    exact .inl ⟨(busy_iff s).mpr (.inl hst), by rw [hpos]; rfl, by omega⟩
  | field left i hst hleft hpos _ _ hloop =>
    obtain ⟨-, -, hacc, -⟩ := inField_of_inv hs (.inl hst)
    rw [hpos, Nat.add_sub_cancel_left] at hacc
    obtain ⟨k, rfl, hk, -⟩ := (lengthLoop_ok frame 1 left i s.acc v n hleft hacc).mp (hloop.symm.trans hdec)
    exact .inl ⟨(busy_iff s).mpr (.inr hst), hpos, by omega⟩
  | done k hst hpos hdec' hres =>
    rw [hdec] at hdec'
    cases hdec'
    exact .inr ⟨hst, hpos, rfl, by rw [hres, hparse]⟩
  | err _ hst _ _ hres =>
    obtain ⟨hdone, -⟩ := (result_ok_iff false).mp (hres.trans (congrArg some hparse))
    rw [outputs_done, hst] at hdone
    cases hdone

/-- The registers of a successful result hold its header. -/
theorem registers_of_result {s : State} {frame : Frame} {h : FixedHeader} {r : Frame}
    (hres : s.result frame = some (.ok (h, r))) (hst : s.st = .done) :
    s.ptype = packetCode h.packetType ∧ s.pflags = h.packetFlags ∧ s.acc = h.remainingLength := by
  obtain ⟨-, htype, hflags, hlen, -⟩ := (result_ok_iff false).mp hres
  obtain ⟨hptype, hpflags, hacc⟩ := outputs_header_ports false hst
  exact ⟨hptype.symm.trans htype, hpflags.symm.trans hflags, hacc.symm.trans hlen⟩

/-- The attempt on `frame` has taken `m` of the bytes that its host feeds it, the first `len` of the frame; the others
come in the next cycles, one in each, and then `rest`. -/
structure FedTo (frame : Frame) (len : Nat) (rest : List Cycle) (m : Nat) (s : State) : Prop where
  inv : s.Inv
  tracks : Tracks frame s m
  host : s.host = assemble (feed ((frame.take len).drop m)) ++ rest

section Feed

variable {frame : Frame} {len m : Nat} {rest : List Cycle} {s : State}

/-- START leaves all the bytes to come. -/
theorem fedTo_start (hst : s.st.resting = true) :
    ∃ u, step { s with host := assemble (.start :: feed (frame.take len)) ++ rest } = .next u ∧
      FedTo frame len rest 0 u :=
  ⟨_, step_of_startTaken ⟨rfl, rfl, hst⟩, inv_of_cleared (.inr rfl) (beginAttempt_cleared _), .start rfl, rfl⟩

/-- A busy cycle takes the byte that is fed at the cursor. -/
theorem fedTo_step (h : FedTo frame len rest m s) (hbusy : s.busy = true) (hpos : s.pos.toNat = m) (hm : m < len)
    (hlen : len ≤ frame.length) : ∃ u, step s = .next u ∧ FedTo frame len rest (m + 1) u := by
  obtain ⟨hinv, htracks, hhost⟩ := h
  obtain ⟨b, hb⟩ : ∃ b, memRead frame m = some b := ⟨frame[m], List.getElem?_eq_getElem (by omega)⟩
  have hfeed : (frame.take len).drop m = b :: (frame.take len).drop (m + 1) :=
    memRead_drop ((List.getElem?_take_of_lt hm).trans hb)
  rw [hfeed] at hhost
  have hinputs : s.inputs = (HostCommand.byte b).cycle := inputs_of_host hhost
  have hoffer : s.offersFrom frame := by
    rw [State.offersFrom, hinputs, hpos]
    exact ⟨rfl, .inl ⟨rfl, hb⟩⟩
  obtain ⟨u, hstep⟩ := stepCompletesFromInvariant s hinv
  exact ⟨u, hstep, stepKeepsInvariant s u hinv hstep, tracks_step hinv htracks hbusy hoffer hstep,
    by rw [step_host hstep, hhost]; rfl⟩

end Feed

/-- After START and `m` bytes of an accepted header, in as many cycles, the block has taken those bytes. -/
theorem fedTo_runCycles {frame : Frame} {h : FixedHeader} {r : Frame} {v : Word32} {n : Nat} {s : State}
    (rest : List Cycle) (hparse : parseFixedHeader frame = .ok (h, r))
    (hdec : decodeRemainingLength frame 1 = .ok (v, n)) (hst : s.st.resting = true) {m : Nat} (hm : m ≤ 1 + n) :
    ∃ t, runCycles (m + 1) { s with host := assemble (.start :: feed (frame.take (1 + n))) ++ rest } = .next t ∧
      FedTo frame (1 + n) rest m t := by
  obtain ⟨hone, -, hfield, -⟩ := (decodeRemainingLength_ok_iff frame 1 v n).mp hdec
  have hlen : 1 + n ≤ frame.length := by
    rw [List.length_take, List.length_drop] at hfield
    omega
  induction m with
  | zero => exact fedTo_start hst
  | succ m ih =>
    obtain ⟨t, hrun, hfed⟩ := ih (by omega)
    rcases tracks_of_accepted hparse hdec hfed.inv hfed.tracks with ⟨hbusy, hpos, -⟩ | ⟨-, -, hend, -⟩
    · obtain ⟨u, hstep, hfed'⟩ := fedTo_step hfed hbusy hpos (by omega) hlen
      exact ⟨u, by rw [runCycles, hrun]; exact hstep, hfed'⟩
    · omega

/-- Settles O54: each cycle after START takes one byte of the header, and the parser's progress on the bytes taken says
whether the block is busy or in DONE. -/
theorem headerTakesTwoPlusLengthCycles : Obligations.HeaderTakesTwoPlusLengthCycles := by
  intro frame h r v n s rest hparse hdec hst
  refine ⟨fun k hlo hhi => ?_, ?_⟩
  · obtain ⟨m, rfl⟩ := Nat.exists_eq_add_of_le' hlo
    obtain ⟨t, hrun, hfed⟩ := fedTo_runCycles rest hparse hdec hst (m := m) (by omega)
    rcases tracks_of_accepted hparse hdec hfed.inv hfed.tracks with ⟨hbusy, hpos, -⟩ | ⟨-, -, hend, -⟩
    · exact ⟨t, hrun, hbusy, hpos⟩
    · omega
  · obtain ⟨t, hrun, hfed⟩ := fedTo_runCycles rest hparse hdec hst le_rfl
    rcases tracks_of_accepted hparse hdec hfed.inv hfed.tracks with ⟨-, -, hlt⟩ | ⟨hdone, hpos, -, hres⟩
    · exact absurd hlt (lt_irrefl _)
    · obtain ⟨htype, hflags, hacc⟩ := registers_of_result hres hdone
      have hhost : t.host = rest := by
        rw [hfed.host, List.drop_eq_nil_of_le (List.length_take_le _ _)]
        rfl
      exact ⟨t, by rw [show 2 + n = 1 + n + 1 by omega, hrun], hdone, htype, hflags, hacc, hpos, hhost⟩

end Sys2Proof.Machine
